-- ==== Sys2Proof/Word.lean ====
section
/-! DEFINITION. The word types of the block and the 8-byte slot. Widths are those of spec rule R7 and the
ports of rule R62; every value is unsigned (rule R9). -/

namespace Sys2Proof

/-- One byte of storage (rule R23). -/
abbrev Byte := BitVec 8

/-- A 16-bit port or field: a selector, a size-minus-one (rule R7). -/
abbrev Half := BitVec 16

/-- A 32-bit linear address or a 32-bit port (rule R7). -/
abbrev Word := BitVec 32

/-- A command word, exactly 128 bits (rule R61). -/
abbrev Command := BitVec 128

/-- The number of addresses of the storage, 2^32 (rule R40). -/
abbrev addressCount : Nat := 4294967296

/-- The 8 bytes of a slot, lowest address first: `b0` is `B[0]` of rule R10. -/
structure Slot where
  b0 : Byte
  b1 : Byte
  b2 : Byte
  b3 : Byte
  b4 : Byte
  b5 : Byte
  b6 : Byte
  b7 : Byte
  deriving DecidableEq, Repr

end Sys2Proof
end

