-- ==== Sys2Proof/Config.lean ====
section
/-! DEFINITION. What is fixed outside the block: the open parameter SEG_B6_RSVD (spec D6) and the constants
the spec states. -/

namespace Sys2Proof

/-- What SEG_ENCODE leaves in bits 4 and 5 of byte 6 (parameter `SEG_B6_RSVD`, rule R8, D6). -/
inductive SegB6Rsvd where
  /-- The two bits are written as 0. -/
  | zero
  /-- The two bits keep the value of the slot's old byte 6. -/
  | preserve
  deriving DecidableEq, Repr, Inhabited

/-- `SEG_B6_RSVD` at launch: the spec leaves it open (D6), so nothing here says which of the two it is.
DESIGN CHOICE, log 6. -/
opaque Config.segB6Rsvd : SegB6Rsvd

/-- The position of `IF` in the processor flags register (rule R24). -/
abbrev Config.ifBit : Nat := 9

/-- Entries of the segment table the boot program builds (rule R7). -/
abbrev Config.gdtEntries : Nat := 3

/-- Entries of the interrupt table (rule R7). -/
abbrev Config.idtEntries : Nat := 256

/-- Populated entries of the interrupt table, the vectors 0 to 31 (rule R7). -/
abbrev Config.exceptionVectors : Nat := 32

end Sys2Proof
end

