-- ==== Sys2Proof/Syntax.lean ====
section
/-! DEFINITION. The commands of the block, operands on the typed ports of spec rule R62. One constructor of
`Instr` for each row of opcode_table.json. Every port has exactly the source's width, so a wider value
cannot be given (D22). -/

namespace Sys2Proof

/-- The Segment Descriptor Source: the ports of SEG_ENCODE beside `dst` (rule R62). -/
structure SegSource where
  base  : Word
  limit : Word
  p     : BitVec 1
  dpl   : BitVec 2
  x     : BitVec 1
  dc    : BitVec 1
  rw    : BitVec 1
  a     : BitVec 1
  g     : BitVec 1
  db    : BitVec 1
  deriving DecidableEq, Repr

/-- The Interrupt Gate Source: the ports of GATE_ENCODE beside `dst` (rule R62). -/
structure GateSource where
  off  : Word
  sel  : Half
  kind : BitVec 4
  s    : BitVec 1
  dpl  : BitVec 2
  p    : BitVec 1
  deriving DecidableEq, Repr

/-- The Table Descriptor Source: the ports of TDESC_ENCODE beside `dst` (rule R62). -/
structure TdescSource where
  base  : Word
  size1 : Half
  deriving DecidableEq, Repr

/-- The three commands of the block (rule R60), each with its destination slot `dst` and its source record. -/
inductive Instr where
  | segEncode (dst : Word) (src : SegSource)
  | gateEncode (dst : Word) (src : GateSource)
  | tdescEncode (dst : Word) (src : TdescSource)
  deriving DecidableEq, Repr

/-- The destination port, common to all commands (rule R62). -/
def Instr.dst : Instr → Word
  | .segEncode dst _ => dst
  | .gateEncode dst _ => dst
  | .tdescEncode dst _ => dst

end Sys2Proof
end

