-- ==== Sys2Proof/WellFormed.lean ====
section
/-! DEFINITION. The well-formedness predicates of spec rule R75: conditions a caller owes. The block enforces
none of them ("not validated here", rule R74): the encoder, the decoder and the meanings are total on every
`Instr`, and claims may be stated under these. -/

namespace Sys2Proof

/-- `WF_seg` (rule R75): the limit fits the 20 bits that are encoded. -/
def SegSource.wf (src : SegSource) : Bool :=
  decide (src.limit.toNat < 2 ^ 20)

/-- The kinds of gate for which the storage-segment flag must be 0: `0x6, 0x7, 0xE, 0xF` (rule R75). -/
def isInterruptOrTrapKind (kind : BitVec 4) : Bool :=
  kind == 0x6#4 || kind == 0x7#4 || kind == 0xE#4 || kind == 0xF#4

/-- First part of `WF_gate` (rule R75): an interrupt or trap gate has `s = 0`. -/
def GateSource.storageFlagOk (src : GateSource) : Bool :=
  !isInterruptOrTrapKind src.kind || src.s == 0#1

/-- A present, executable code/data descriptor, by its byte 5: bits 7, 4 and 3 are 1 (rule R75). -/
def Slot.isPresentCode (B : Slot) : Bool :=
  B.b5.getLsbD 7 && B.b5.getLsbD 4 && B.b5.getLsbD 3

/-- The entry a selector names: selector = index × 8 (rule R75); none past the table's end. -/
def selectedEntry (sel : Half) (gdt : List Slot) : Option Slot :=
  gdt[(sel.toNat) / 8]?

/-- Second part of `WF_gate` (rule R75): the selector's bits 2:0 are 0 and it references a present,
executable descriptor of `gdt`. -/
def GateSource.selectorOk (src : GateSource) (gdt : List Slot) : Bool :=
  src.sel.toNat % 8 == 0 &&
    match selectedEntry src.sel gdt with
    | none => false
    | some B => B.isPresentCode

/-- `WF_gate(g, gdt)` (rule R75). -/
def GateSource.wf (src : GateSource) (gdt : List Slot) : Bool :=
  src.storageFlagOk && src.selectorOk gdt

/-- `WF_tdesc(t, n)` (rule R75): `size1 = 8 * n - 1` for a table of `n` 8-byte entries. -/
def TdescSource.wf (src : TdescSource) (n : Nat) : Bool :=
  src.size1.toNat + 1 == 8 * n

/-- The predicate of rule R75 for a command: `gdt` is the segment table a gate's selector refers to, `n` the
number of entries of the table a table descriptor describes. -/
def Instr.wf (i : Instr) (gdt : List Slot) (n : Nat) : Bool :=
  match i with
  | .segEncode _ src => src.wf
  | .gateEncode _ src => src.wf gdt
  | .tdescEncode _ src => src.wf n

end Sys2Proof
end

