-- ==== Sys2Proof/Decode.lean ====
section
/-! DEFINITION. The decoder of command words, from the opcode table (spec rules R64 and R79), total on every
128-bit word; after it the encoder, from the word layout (rules R63 and R65 to R67). -/

namespace Sys2Proof

/-- One row of opcode_table.json: a word `W` is the row's operation when `W & mask = pattern` (rule R79). -/
structure OpRow where
  mnemonic  : String
  pattern   : Command
  mask      : Command
  deriving DecidableEq, Repr

/-- The row of SEG_ENCODE (rule R79). -/
def segRow : OpRow :=
  ⟨"SEG_ENCODE", 0x00000000000000000000000000000000#128, 0x0000000000000000000000003F10FFFF#128⟩

/-- The row of GATE_ENCODE (rule R79, conflict C6). -/
def gateRow : OpRow :=
  ⟨"GATE_ENCODE", 0x00000000000000000000000000000001#128, 0x0000000000000000FFFF0000FF00FFFF#128⟩

/-- The row of TDESC_ENCODE (rule R79, conflict C6). -/
def tdescRow : OpRow :=
  ⟨"TDESC_ENCODE", 0x00000000000000000000000000000002#128, 0x0000000000000000FFFF0000FFFFFFFF#128⟩

/-- The opcode table (rule R79). -/
def opcodeTable : List OpRow := [segRow, gateRow, tdescRow]

/-- `W & mask = pattern` (rule R79). -/
def OpRow.covers (r : OpRow) (W : Command) : Bool :=
  W &&& r.mask == r.pattern

/-- Why a word spells no command (rule R68); both are the fault `ReservedCommand`. -/
inductive Rejection where
  /-- `OP = 0b11`. -/
  | reservedOperation
  /-- A bit that rules R65 to R67 fix at 0 is 1. -/
  | reservedBits
  deriving DecidableEq, Repr

/-- The operation code `OP = W[1:0]` (rule R63). -/
def opField (W : Command) : BitVec 2 := W.extractLsb' 0 2

/-- `DST = W[127:96]` (rule R63). -/
def dstField (W : Command) : Word := W.extractLsb' 96 32

/-- The ports of SEG_ENCODE in a word (rule R65). -/
def segPorts (W : Command) : SegSource where
  base  := W.extractLsb' 64 32
  limit := W.extractLsb' 32 32
  p     := W.extractLsb' 23 1
  dpl   := W.extractLsb' 21 2
  x     := W.extractLsb' 19 1
  dc    := W.extractLsb' 18 1
  rw    := W.extractLsb' 17 1
  a     := W.extractLsb' 16 1
  g     := W.extractLsb' 31 1
  db    := W.extractLsb' 30 1

/-- The ports of GATE_ENCODE in a word (rule R66). -/
def gatePorts (W : Command) : GateSource where
  off  := W.extractLsb' 64 32
  sel  := W.extractLsb' 32 16
  kind := W.extractLsb' 16 4
  s    := W.extractLsb' 20 1
  dpl  := W.extractLsb' 21 2
  p    := W.extractLsb' 23 1

/-- The ports of TDESC_ENCODE in a word (rule R67). -/
def tdescPorts (W : Command) : TdescSource where
  base  := W.extractLsb' 64 32
  size1 := W.extractLsb' 32 16

/-- The decoder: every word is exactly one of the three commands or is rejected (rule R68). -/
def decode (W : Command) : Except Rejection Instr :=
  if segRow.covers W then .ok (.segEncode (dstField W) (segPorts W))
  else if gateRow.covers W then .ok (.gateEncode (dstField W) (gatePorts W))
  else if tdescRow.covers W then .ok (.tdescEncode (dstField W) (tdescPorts W))
  else if opField W == 3#2 then .error .reservedOperation
  else .error .reservedBits

/-- The word layout of rule R63, most significant field first; `RSV0 = 0`. -/
def packCommand (dst opa opb : Word) (f1 f0 : Byte) (op : BitVec 2) : Command :=
  dst ++ opa ++ opb ++ f1 ++ f0 ++ 0#14 ++ op

/-- `F0` of SEG_ENCODE: the access byte with bit 4 reserved at 0 (rule R65). -/
def segF0 (src : SegSource) : Byte :=
  src.p ++ src.dpl ++ 0#1 ++ src.x ++ src.dc ++ src.rw ++ src.a

/-- `F1` of SEG_ENCODE: `g`, `db`, then six reserved bits at 0 (rule R65). -/
def segF1 (src : SegSource) : Byte :=
  src.g ++ src.db ++ 0#6

/-- `F0` of GATE_ENCODE (rule R66). -/
def gateF0 (src : GateSource) : Byte :=
  src.p ++ src.dpl ++ src.s ++ src.kind

/-- The encoder: the command word of a command (rules R64 to R67). -/
def encode : Instr → Command
  | .segEncode dst src => packCommand dst src.base src.limit (segF1 src) (segF0 src) 0#2
  | .gateEncode dst src => packCommand dst src.off (0#16 ++ src.sel) 0#8 (gateF0 src) 1#2
  | .tdescEncode dst src => packCommand dst src.base (0#16 ++ src.size1) 0#8 0#8 2#2

/-- The row a command belongs to (rule R79). -/
def Instr.row : Instr → OpRow
  | .segEncode _ _ => segRow
  | .gateEncode _ _ => gateRow
  | .tdescEncode _ _ => tdescRow

/-- The word of `nbits` bits that the table's numbering gives, bits above `nbits` being 0; none where it is
wider than a command word (rule R61). Log 22. -/
def tableWord (nbits w : Nat) : Option Command :=
  let v := w % 2 ^ nbits
  if v < 2 ^ 128 then some (BitVec.ofNat 128 v) else none

/-- What the decoder reads from an instruction whose bits, numbered as the opcode table numbers them, are `w`.
Commands are not stored in memory (rule R22), so the word is given to the decoder as it is. -/
def decodeTableWord (nbits w : Nat) : Option Instr :=
  match tableWord nbits w with
  | none => none
  | some W =>
    match decode W with
    | .ok i => some i
    | .error _ => none

end Sys2Proof
end

