-- ==== Sys2Proof/Machine/Operands.lean ====
section
/-! DEFINITION. Operand assembly (spec rule R69) and the bytes of the three records (rules R70 to R72): every
operand unsigned and at its port width, little-endian (rule R41), only selection and concatenation. -/

namespace Sys2Proof.Machine

open Sys2Proof

/-- Byte `i` of a field, `v[8i+7:8i]` (rule R41). -/
def byteOf {n : Nat} (v : BitVec n) (i : Nat) : Byte := v.extractLsb' (8 * i) 8

/-- `limit20 = limit[19:0]`: "the encoder truncates to 20 bits" (rule R69). -/
def limit20 (src : SegSource) : BitVec 20 := src.limit.extractLsb' 0 20

/-- The access byte `{p, dpl[1:0], 1, x, dc, rw, a}` (rule R101). -/
def accessByte (src : SegSource) : Byte :=
  src.p ++ src.dpl ++ 1#1 ++ src.x ++ src.dc ++ src.rw ++ src.a

/-- Bits 5:4 of byte 6: 0 under `zero`, those of the old byte under `preserve` (rule R101, D6). -/
def reservedBits (policy : SegB6Rsvd) (old : Byte) : BitVec 2 :=
  match policy with
  | .zero => 0#2
  | .preserve => old.extractLsb' 4 2

/-- Byte 6 of a segment descriptor, `{g, db, rsv[1:0], limit20[19:16]}` (rule R101). -/
def segByte6 (src : SegSource) (rsv : BitVec 2) : Byte :=
  src.g ++ src.db ++ rsv ++ (limit20 src).extractLsb' 16 4

/-- The 8 bytes SEG_ENCODE writes, lowest address first (rules R70 and R101). -/
def segBytes (src : SegSource) (rsv : BitVec 2) : List Byte :=
  [byteOf (limit20 src) 0, byteOf (limit20 src) 1,
   byteOf src.base 0, byteOf src.base 1, byteOf src.base 2,
   accessByte src, segByte6 src rsv, byteOf src.base 3]

/-- Byte 5 of a gate, `{p, dpl[1:0], s, kind[3:0]}` (rule R120). -/
def gateByte5 (src : GateSource) : Byte :=
  src.p ++ src.dpl ++ src.s ++ src.kind

/-- Bytes 0 to 3 of a gate (rules R71 and R120). -/
def gateLowBytes (src : GateSource) : List Byte :=
  [byteOf src.off 0, byteOf src.off 1, byteOf src.sel 0, byteOf src.sel 1]

/-- Bytes 5 to 7 of a gate (rules R71 and R120). -/
def gateHighBytes (src : GateSource) : List Byte :=
  [gateByte5 src, byteOf src.off 2, byteOf src.off 3]

/-- The 6 bytes of a table descriptor (rules R72 and R140). -/
def tdescBytes (src : TdescSource) : List Byte :=
  [byteOf src.size1 0, byteOf src.size1 1,
   byteOf src.base 0, byteOf src.base 1, byteOf src.base 2, byteOf src.base 3]

/-- The kinds of gate the source names (rule R73). -/
inductive GateKind where
  | task
  | interrupt16
  | trap16
  | interrupt32
  | trap32
  deriving DecidableEq, Repr

/-- The kind a 4-bit value stands for (rule R73): `0xE` from the source, the other four values general knowledge
(log 19). For naming only: the encoder passes any value through (rule R69). -/
def gateKind (kind : BitVec 4) : Option GateKind :=
  if kind = 0xE#4 then some .interrupt32
  else if kind = 0x5#4 then some .task
  else if kind = 0x6#4 then some .interrupt16
  else if kind = 0x7#4 then some .trap16
  else if kind = 0xF#4 then some .trap32
  else none

end Sys2Proof.Machine
end

