-- ==== Sys2Proof/Machine/Fields.lean ====
section
/-! DEFINITION. Field extraction from an 8-byte slot: `SEG_FIELDS`, `GATE_FIELDS` and `TDESC_FIELDS` of spec
rules R102, R121 and R141. The first two are functions for stating claims; the table loader uses the third
(rule R167). -/

namespace Sys2Proof.Machine

open Sys2Proof

/-- The fields of a segment descriptor (rule R102). -/
structure SegFields where
  limit20 : BitVec 20
  base    : Word
  a       : BitVec 1
  rw      : BitVec 1
  dc      : BitVec 1
  x       : BitVec 1
  sys     : BitVec 1
  dpl     : BitVec 2
  p       : BitVec 1
  rsv     : BitVec 2
  db      : BitVec 1
  g       : BitVec 1
  deriving DecidableEq, Repr

/-- The fields of a gate (rule R121). -/
structure GateFields where
  off  : Word
  sel  : Half
  rsv  : Byte
  kind : BitVec 4
  s    : BitVec 1
  dpl  : BitVec 2
  p    : BitVec 1
  deriving DecidableEq, Repr

/-- `SEG_FIELDS` (rule R102). -/
def segFields (B : Slot) : SegFields where
  limit20 := B.b6.extractLsb' 0 4 ++ B.b1 ++ B.b0
  base    := B.b7 ++ B.b4 ++ B.b3 ++ B.b2
  a       := B.b5.extractLsb' 0 1
  rw      := B.b5.extractLsb' 1 1
  dc      := B.b5.extractLsb' 2 1
  x       := B.b5.extractLsb' 3 1
  sys     := B.b5.extractLsb' 4 1
  dpl     := B.b5.extractLsb' 5 2
  p       := B.b5.extractLsb' 7 1
  rsv     := B.b6.extractLsb' 4 2
  db      := B.b6.extractLsb' 6 1
  g       := B.b6.extractLsb' 7 1

/-- `GATE_FIELDS` (rule R121). -/
def gateFields (B : Slot) : GateFields where
  off  := B.b7 ++ B.b6 ++ B.b1 ++ B.b0
  sel  := B.b3 ++ B.b2
  rsv  := B.b4
  kind := B.b5.extractLsb' 0 4
  s    := B.b5.extractLsb' 4 1
  dpl  := B.b5.extractLsb' 5 2
  p    := B.b5.extractLsb' 7 1

/-- `TDESC_FIELDS` (rule R141); it reads bytes 0 to 5 only. -/
def tdescFields (B : Slot) : TdescSource where
  base  := B.b5 ++ B.b4 ++ B.b3 ++ B.b2
  size1 := B.b1 ++ B.b0

/-- The effective byte limit the CPU derives from a descriptor (rule R50): `limit20`, or
`(limit20 << 12) | 0xFFF` when `g = 1`. General knowledge of the spec's author, for orientation only: no rule and
no step depends on it (log 19). -/
def SegFields.effectiveLimit (f : SegFields) : Word :=
  if f.g = 1#1 then f.limit20 ++ 0xFFF#12 else f.limit20.setWidth 32

end Sys2Proof.Machine
end

