-- ==== Sys2Proof/Machine/AddrSet.lean ====
section
/-! DEFINITION. Sets of 32-bit addresses (`StorageRegion` and `ActiveRegions`, spec rules R8, R25) as plain
data: a list of spans in one canonical form, rising and never touching, so that equal sets are equal data
(log 17). -/

namespace Sys2Proof.Machine

open Sys2Proof

/-- The addresses `lo .. hi`, both included. -/
structure Span where
  lo : Nat
  hi : Nat
  deriving DecidableEq, Repr

/-- A set of addresses. -/
abbrev AddrSet := List Span

/-- Membership of an address in a span. -/
def Span.contains (sp : Span) (a : Nat) : Bool := decide (sp.lo ≤ a) && decide (a ≤ sp.hi)

/-- Membership of an address in a set. -/
def AddrSet.contains (set : AddrSet) (a : Nat) : Bool := set.any fun sp => sp.contains a

/-- The union of a set with the addresses `lo .. hi`; spans that meet or touch are joined. -/
def AddrSet.insert : AddrSet → Nat → Nat → AddrSet
  | [], lo, hi => [⟨lo, hi⟩]
  | sp :: rest, lo, hi =>
    if sp.hi + 1 < lo then sp :: AddrSet.insert rest lo hi
    else if hi + 1 < sp.lo then ⟨lo, hi⟩ :: sp :: rest
    else AddrSet.insert rest (min lo sp.lo) (max hi sp.hi)

/-- The canonical form from address `lo` on: non-empty spans of the address space, a gap between any two. -/
def AddrSet.wfFrom : Nat → AddrSet → Bool
  | _, [] => true
  | lo, sp :: rest =>
    decide (lo ≤ sp.lo) && decide (sp.lo ≤ sp.hi) && decide (sp.hi < addressCount) &&
      AddrSet.wfFrom (sp.hi + 2) rest

/-- The canonical form of a set of addresses. -/
def AddrSet.wf (set : AddrSet) : Bool := AddrSet.wfFrom 0 set

/-- Every byte `dst + k`, `k < n`, is in the set (the test of rule R162 for `StorageRegion`). -/
def AddrSet.covers (set : AddrSet) (dst : Word) (n : Nat) : Bool :=
  (List.range n).all fun k => set.contains (dst + BitVec.ofNat 32 k).toNat

/-- Some byte `dst + k`, `k < n`, is in the set (the test of rule R162 for `ActiveRegions`). -/
def AddrSet.meets (set : AddrSet) (dst : Word) (n : Nat) : Bool :=
  (List.range n).any fun k => set.contains (dst + BitVec.ofNat 32 k).toNat

end Sys2Proof.Machine
end

