-- ==== Sys2Proof/Machine/Memory.lean ====
section
/-! DEFINITION. The storage `Mem` of spec rules R23 and R40: a list of (address, byte) pairs in one canonical
form, addresses strictly rising and no entry equal to the byte an unlisted address reads as. -/

namespace Sys2Proof.Machine

open Sys2Proof

/-- The storage: the listed bytes of a map from 32-bit addresses to bytes (rule R23). -/
abbrev Memory := List Host.Cell

/-- What an unlisted address reads as. The launch contents are the spec's draw `Mem0` (rule R32, D13), which a
state's list can hold whole; DESIGN CHOICE, log 3. -/
def Memory.unlisted : Byte := 0x00#8

/-- `MemRead(addr, 1)` of rule R10, by address number. -/
def Memory.read : Memory → Nat → Byte
  | [], _ => Memory.unlisted
  | (b, w) :: rest, a => if b = a then w else Memory.read rest a

/-- The list with the pair put in front, unless the value is what an unlisted address reads as. -/
def Memory.cons (a : Nat) (v : Byte) (rest : Memory) : Memory :=
  if v = Memory.unlisted then rest else (a, v) :: rest

/-- `MemWrite(addr, 1, v)` of rule R10, by address number; it keeps the canonical form. -/
def Memory.write : Memory → Nat → Byte → Memory
  | [], a, v => Memory.cons a v []
  | (b, w) :: rest, a, v =>
    if b < a then (b, w) :: Memory.write rest a v
    else if b = a then Memory.cons a v rest
    else Memory.cons a v ((b, w) :: rest)

/-- The bytes `bs` stored one by one at `a`, `a + 1`, … (rules R10 and R41). -/
def Memory.store : Memory → Word → List Byte → Memory
  | m, _, [] => m
  | m, a, b :: bs => Memory.store (m.write a.toNat b) (a + 1#32) bs

/-- The canonical form from address `lo` on: rising addresses of the address space, no unlisted value. -/
def Memory.wfFrom : Nat → Memory → Bool
  | _, [] => true
  | lo, (a, v) :: rest =>
    decide (lo ≤ a) && decide (a < addressCount) && decide (v ≠ Memory.unlisted) && Memory.wfFrom (a + 1) rest

/-- The canonical form of the storage. -/
def Memory.wf (m : Memory) : Bool := Memory.wfFrom 0 m

end Sys2Proof.Machine
end

