-- ==== Sys2Proof/Machine/State.lean ====
section
/-! DEFINITION. The state of the block and its environment (spec 10_state.md section 2), the reasons a step can
stop, and the launch state (rule R32). -/

namespace Sys2Proof.Machine

open Sys2Proof

/-- A model fault with the information it records (rule R161). -/
inductive ModelFault where
  /-- Code 1: the word spells no command. -/
  | reservedCommand (W : Command)
  /-- Code 2: `IF = 1` when a command issues. -/
  | interruptsEnabled (W : Command)
  /-- Code 3: `dst[2:0] != 0`. -/
  | slotMisaligned (dst : Word)
  /-- Code 4: a footprint byte outside `StorageRegion`. -/
  | slotOutOfStorage (dst : Word)
  /-- Code 5: a footprint byte in `ActiveRegions`. -/
  | writeToActiveTable (dst : Word)
  deriving DecidableEq, Repr

/-- The environment's steps that a program can hold (rules R78, R166 and R167). -/
inductive EnvStep where
  /-- `env.cli`, disable-interrupts. -/
  | cli
  /-- `env.sti`, enable-interrupts. -/
  | sti
  /-- read-interrupt-enable (no listing). -/
  | readInterruptEnable
  /-- halt-until-next-interrupt (no listing). -/
  | haltUntilInterrupt
  /-- halt-permanently (no listing). -/
  | haltPermanently
  /-- `env.lgdt slot`. -/
  | lgdt (slot : Word)
  /-- `env.lidt slot`. -/
  | lidt (slot : Word)
  /-- `env.reload cs, ds`. -/
  | reload (cs ds : Half)
  deriving DecidableEq, Repr

/-- One item of a program: a command word or an environment step (rules R22, R78 and R196). -/
inductive ProgItem where
  | word (W : Command)
  | env (e : EnvStep)
  deriving DecidableEq, Repr

/-- What a table-base register is loaded with: the two fields of a Table Descriptor (rule R28). -/
structure TableReg where
  base  : Word
  size1 : Half
  deriving DecidableEq, Repr

/-- The halts of rules R166 and R179. -/
inductive HaltState where
  | running
  /-- After halt-until-next-interrupt. -/
  | untilInterrupt
  /-- After halt-permanently: a terminal state. -/
  | permanently
  deriving DecidableEq, Repr

/-- Who takes the next step: the program, or the CPU's accessed-bit write `EnvSetAccessed(addr)` (rule R30).
When the CPU takes it is not in the source; the schedule in State says when (log 10). -/
inductive Turn where
  | program
  | setAccessed (addr : Word)
  deriving DecidableEq, Repr

/-- The state of the block and its environment (spec 10_state.md section 2 and rule R28). -/
structure State where
  /-- Item 1, the index of the next item of the program (rule R22). -/
  pc            : Nat
  /-- Item 2, the storage (rule R23). -/
  mem           : Memory
  /-- Item 3, the fault record (rule R26). -/
  fault         : Option ModelFault
  /-- Item 4, the processor flags register, whose bit 9 is `IF` (rules R24 and R28; log 7). -/
  flags         : BitVec 32
  /-- Item 5, the bytes of activated tables (rule R25). -/
  activeRegions : AddrSet
  /-- Item 6, the bytes the block may write, a launch parameter (rule R8). -/
  storageRegion : AddrSet
  /-- Item 7, the segment-table base register; none is "unloaded" (rule R28). -/
  gdtr          : Option TableReg
  /-- Item 8, the interrupt-table base register; none is "unloaded" (rule R28). -/
  idtr          : Option TableReg
  /-- The CPU's active code segment selector (rules R28 and R167). -/
  codeSel       : Half
  /-- The CPU's active data segment selectors (rules R28 and R167). -/
  dataSel       : Half
  /-- The parameter `SEG_B6_RSVD`, fixed at launch (rules R8 and R20, D6). -/
  segB6Rsvd     : SegB6Rsvd
  /-- The program, a list of items; not in storage (rules R22 and R54). -/
  program       : List ProgItem
  /-- Whether the environment has halted (rule R166). -/
  halt          : HaltState
  /-- The model's own field: a segment-table load still waits for its selector reload (rule R185, log 14). -/
  reloadDue     : Bool
  /-- The model's own field: who moves next, first turn first; an empty schedule is the program's (log 10). -/
  turns         : List Turn
  deriving DecidableEq, Repr

/-- The reasons no step is enabled: the run has ended in failure or is stuck (rules R165, R166 and R196).
All are safe: the spec's model takes no step there either. -/
inductive Fault where
  /-- Raised by every step of a state whose `fault` is set: "no command step and no environment step is enabled"
  (rule R165). Safe. -/
  | faulted (f : ModelFault)
  /-- Raised by every step after halt-until-next-interrupt: there is no interrupt source in the model, so it is
  a stuck state (rules R166 and R169, U20). Safe. -/
  | haltedUntilInterrupt
  /-- Raised by every step after halt-permanently: "no further step is ever enabled" (rule R166, U21). Safe. -/
  | haltedPermanently
  deriving DecidableEq, Repr

/-- The reasons the model gives a step no meaning. -/
inductive Refusal where
  /-- Raised by an arm of `exec` whose instruction has no meaning yet; no arm does. Safe. -/
  | notModelled (mnemonic : String)
  /-- Raised by a step whose `pc` is not the index of an item: the run has ended (rule R196). Safe. -/
  | endOfProgram
  /-- Raised by `env.lgdt` and `env.lidt` on a malformed table descriptor (rule R167, U7). Safe. -/
  | malformedTableDescriptor (slot : Word)
  /-- Raised by `env.lgdt` and `env.lidt` when `base + size1` passes `0xFFFFFFFF` (rule R167, U8). Safe. -/
  | tablePassesAddressSpace (slot : Word)
  /-- Raised by a program item other than `env.reload` right after `env.lgdt` (rule R185, U9). Safe. -/
  | stepBeforeReload
  /-- Raised by a turn `EnvSetAccessed(addr)` whose address is not byte 5 of a slot inside `ActiveRegions`: the
  spec has no such step (rule R30, log 11). Safe. -/
  | accessedOutsideActiveTable (addr : Word)
  deriving DecidableEq, Repr

/-- The launch state (rule R32). The items the spec leaves to launch parameters or does not give take the values
of logs 1, 3, 4, 5, 6, 7, 10, 12 and 14. -/
def State.reset : State where
  pc            := 0
  mem           := []
  fault         := none
  flags         := 0x00000002#32
  activeRegions := []
  storageRegion := [⟨0x00000000, 0xFFFFFFFF⟩]
  gdtr          := none
  idtr          := none
  codeSel       := 0xF000#16
  dataSel       := 0x0000#16
  segB6Rsvd     := Config.segB6Rsvd
  program       := []
  halt          := .running
  reloadDue     := false
  turns         := []

end Sys2Proof.Machine
end

