-- ==== Sys2Proof/Machine/Update.lean ====
section
/-! DEFINITION. The named updates of the state, one per home that a step writes. `storageRegion`, `segB6Rsvd`
and `program` have none: no step writes them (spec 10_state.md item 6, rules R8 and R22). -/

namespace Sys2Proof.Machine

open Sys2Proof

/-- `pc <- pc + 1` (rule R22). -/
def State.advance (s : State) : State := { s with pc := s.pc + 1 }

/-- The state with the storage replaced. -/
def State.withMem (s : State) (m : Memory) : State := { s with mem := m }

/-- The state with the fault record set (rule R26). -/
def State.withFault (s : State) (f : ModelFault) : State := { s with fault := some f }

/-- The state with the flags register replaced (rule R24). -/
def State.withFlags (s : State) (v : BitVec 32) : State := { s with flags := v }

/-- The state with `ActiveRegions` replaced (rule R25). -/
def State.withActive (s : State) (set : AddrSet) : State := { s with activeRegions := set }

/-- The state with `GDTR` loaded (rule R167). -/
def State.withGdtr (s : State) (r : TableReg) : State := { s with gdtr := some r }

/-- The state with `IDTR` loaded (rule R167). -/
def State.withIdtr (s : State) (r : TableReg) : State := { s with idtr := some r }

/-- The state with the active selectors replaced (rule R167). -/
def State.withSelectors (s : State) (cs ds : Half) : State := { s with codeSel := cs, dataSel := ds }

/-- The state with the halt condition replaced (rule R166). -/
def State.withHalt (s : State) (h : HaltState) : State := { s with halt := h }

/-- The state with the pending selector reload replaced (rule R185). -/
def State.withReloadDue (s : State) (b : Bool) : State := { s with reloadDue := b }

/-- The state with the schedule of turns replaced (rule R30). -/
def State.withTurns (s : State) (ts : List Turn) : State := { s with turns := ts }

end Sys2Proof.Machine
end

