-- ==== Sys2Proof/Machine/Flags.lean ====
section
/-! DEFINITION. The processor flags register: its one field the spec gives, `IF` at bit 9 (rules R24 and R28).
The block has no flags and no command writes one (rule R27); only the environment's steps write `IF`. -/

namespace Sys2Proof.Machine

open Sys2Proof

/-- `IF`, the maskable-interrupt enable: bit 9 of the processor flags register (rule R24). -/
def State.IF (s : State) : BitVec 1 := s.flags.extractLsb' Config.ifBit 1

/-- A flags register with bit 9 replaced and every other bit kept. -/
def replaceIF (v : BitVec 32) (b : BitVec 1) : BitVec 32 :=
  v.extractLsb' 10 22 ++ b ++ v.extractLsb' 0 9

/-- `IF <- b` (rule R166). -/
def State.setIF (s : State) (b : BitVec 1) : State := s.withFlags (replaceIF s.flags b)

/-- The value read-interrupt-enable returns to its caller: "whether maskable interrupts are currently accepted,
derived from bit 9 of the processor flags register" (rule R166, log 16). -/
def State.readInterruptEnable (s : State) : Bool := s.IF == 1#1

end Sys2Proof.Machine
end

