-- ==== Sys2Proof/Machine/Ops.lean ====
section
/-! DEFINITION. The named operations over the storage and the admission of a command (spec rules R100, R162),
raising a model fault (rule R165), and the activation of a table (rule R167). The block has no trap entry and no
return from a trap (rules R172 and R173): a model fault is the only thing a command raises. -/

namespace Sys2Proof.Machine

open Sys2Proof

/-- What a step answers. -/
abbrev StepResult := Host.Outcome State Fault Refusal

/-- The code of a model fault (rule R161). -/
def ModelFault.code : ModelFault → Nat
  | .reservedCommand _ => 1
  | .interruptsEnabled _ => 2
  | .slotMisaligned _ => 3
  | .slotOutOfStorage _ => 4
  | .writeToActiveTable _ => 5

/-- `MemRead(addr, 1)` (rule R10). -/
def State.readByte (s : State) (a : Word) : Byte := s.mem.read a.toNat

/-- `Slot(dst)`: the 8 bytes at `dst .. dst+7` (rule R10). -/
def State.readSlot (s : State) (dst : Word) : Slot where
  b0 := s.readByte dst
  b1 := s.readByte (dst + 1#32)
  b2 := s.readByte (dst + 2#32)
  b3 := s.readByte (dst + 3#32)
  b4 := s.readByte (dst + 4#32)
  b5 := s.readByte (dst + 5#32)
  b6 := s.readByte (dst + 6#32)
  b7 := s.readByte (dst + 7#32)

/-- The bytes `bs` written at `a`, `a + 1`, …, in the one step of the command (rules R10 and R46). -/
def State.storeBytes (s : State) (a : Word) (bs : List Byte) : State := s.withMem (s.mem.store a bs)

/-- `dst[2:0] = 0` (rule R43). -/
def aligned8 (dst : Word) : Bool := dst.extractLsb' 0 3 == 0#3

/-- `admit(W, dst, n)` after its first test (rule R162): the first failing test's fault, or none. The first test,
whether `W` matches a row of the opcode table, is the decoder's (rule R162: "A model driven by typed ports instead
of command words skips the first test"). -/
def admission (W : Command) (dst : Word) (n : Nat) (s : State) : Option ModelFault :=
  if s.IF = 1#1 then some (.interruptsEnabled W)
  else if !aligned8 dst then some (.slotMisaligned dst)
  else if !s.storageRegion.covers dst n then some (.slotOutOfStorage dst)
  else if s.activeRegions.meets dst n then some (.writeToActiveTable dst)
  else none

/-- `raise`: the fault is recorded, no byte is written and `pc` is unchanged (rules R26 and R165). -/
def raise (f : ModelFault) (s : State) : StepResult := .next (s.withFault f)

/-- The template of every command (rule R100): admission, then the body, which never faults, then
`pc <- pc + 1`. -/
def command (W : Command) (dst : Word) (n : Nat) (body : State) (s : State) : StepResult :=
  match admission W dst n s with
  | some f => raise f s
  | none => .next body.advance

/-- `ActiveRegions ∪ {base .. base + size1}` (rule R167). -/
def State.activate (s : State) (r : TableReg) : State :=
  s.withActive (s.activeRegions.insert r.base.toNat (r.base.toNat + r.size1.toNat))

end Sys2Proof.Machine
end

