-- ==== Sys2Proof/Machine/Gate.lean ====
section
/-! DEFINITION. GATE_ENCODE, the interrupt gate encoder (spec rule R120). -/

namespace Sys2Proof.Machine

open Sys2Proof

/-- The body of GATE_ENCODE: the slot cleared, then bytes 0 to 3 and 5 to 7; byte 4 stays 0 (rule R120). -/
def gateBody (dst : Word) (src : GateSource) (s : State) : State :=
  ((s.storeBytes dst (List.replicate 8 0x00#8)).storeBytes dst (gateLowBytes src)).storeBytes
    (dst + 5#32) (gateHighBytes src)

/-- GATE_ENCODE (rule R120). -/
def execGateEncode (dst : Word) (src : GateSource) (s : State) : StepResult :=
  command (encode (.gateEncode dst src)) dst 8 (gateBody dst src s) s

end Sys2Proof.Machine
end

