-- ==== Sys2Proof/Machine/Segment.lean ====
section
/-! DEFINITION. SEG_ENCODE, the segment descriptor encoder (spec rule R101). -/

namespace Sys2Proof.Machine

open Sys2Proof

/-- The body of SEG_ENCODE: its 8 bytes, the two unnamed bits of byte 6 by `SEG_B6_RSVD` (rule R101). -/
def segBody (dst : Word) (src : SegSource) (s : State) : State :=
  s.storeBytes dst (segBytes src (reservedBits s.segB6Rsvd (s.readByte (dst + 6#32))))

/-- SEG_ENCODE (rule R101). -/
def execSegEncode (dst : Word) (src : SegSource) (s : State) : StepResult :=
  command (encode (.segEncode dst src)) dst 8 (segBody dst src s) s

end Sys2Proof.Machine
end

