-- ==== Sys2Proof/Machine/TableDesc.lean ====
section
/-! DEFINITION. TDESC_ENCODE, the table descriptor encoder (spec rule R140). -/

namespace Sys2Proof.Machine

open Sys2Proof

/-- The body of TDESC_ENCODE: 6 bytes; `dst + 6` and `dst + 7` are not written (rule R140). -/
def tdescBody (dst : Word) (src : TdescSource) (s : State) : State :=
  s.storeBytes dst (tdescBytes src)

/-- TDESC_ENCODE (rule R140). -/
def execTdescEncode (dst : Word) (src : TdescSource) (s : State) : StepResult :=
  command (encode (.tdescEncode dst src)) dst 6 (tdescBody dst src s) s

end Sys2Proof.Machine
end

