-- ==== Sys2Proof/Machine/Dispatch.lean ====
section
/-! DEFINITION. One arm per command (spec rule R60). -/

namespace Sys2Proof.Machine

open Sys2Proof

def exec (i : Instr) (s : State) : Host.Outcome State Fault Refusal :=
  match i with
  | .segEncode dst src => Sys2Proof.Machine.execSegEncode dst src s
  | .gateEncode dst src => Sys2Proof.Machine.execGateEncode dst src s
  | .tdescEncode dst src => Sys2Proof.Machine.execTdescEncode dst src s

end Sys2Proof.Machine
end

