-- ==== Sys2Proof/Machine/Pseudo.lean ====
section
/-! DEFINITION. The pseudo-instructions of spec rule R77; each expands to exactly one command. -/

namespace Sys2Proof.Machine

open Sys2Proof

/-- The kernel code descriptor's source (rules R77 and R106; `rw = 1` by D12). -/
def kernelCodeSource : SegSource where
  base  := 0#32
  limit := 0xFFFFF#32
  p     := 1#1
  dpl   := 0#2
  x     := 1#1
  dc    := 0#1
  rw    := 1#1
  a     := 0#1
  g     := 1#1
  db    := 1#1

/-- The kernel data descriptor's source (rules R77 and R106). -/
def kernelDataSource : SegSource := { kernelCodeSource with x := 0#1 }

/-- The source of a present, privilege-0 32-bit interrupt gate (rule R77). -/
def interruptGateSource (off : Word) (sel : Half) : GateSource where
  off  := off
  sel  := sel
  kind := 0xE#4
  s    := 0#1
  dpl  := 0#2
  p    := 1#1

/-- `kcode <dst>` (rule R77). -/
def kcode (dst : Word) : Instr := .segEncode dst kernelCodeSource

/-- `kdata <dst>` (rule R77). -/
def kdata (dst : Word) : Instr := .segEncode dst kernelDataSource

/-- `intgate32 <dst>, <off>, <sel>` (rule R77). -/
def intgate32 (dst off : Word) (sel : Half) : Instr := .gateEncode dst (interruptGateSource off sel)

/-- `tabdesc <dst>, <base>, <n>` for `1 <= n <= 8192`, `size1 = 8*n-1` (rule R77); none for another `n`. -/
def tabdesc (dst base : Word) (n : Nat) : Option Instr :=
  if 1 ≤ n ∧ n ≤ 8192 then some (.tdescEncode dst ⟨base, BitVec.ofNat 16 (8 * n - 1)⟩) else none

/-- The kernel code selector: entry 1 of the segment table, index × 8 (rules R125 and R183). -/
abbrev kernelCodeSelector : Half := 0x0008#16

/-- The kernel data selector: entry 2 of the segment table, index × 8 (rule R183). -/
abbrev kernelDataSelector : Half := 0x0010#16

end Sys2Proof.Machine
end

