-- ==== Sys2Proof/Machine/Environment.lean ====
section
/-! DEFINITION. The environment's steps at the block's boundary: the CPU primitives (spec rule R166), the table
loader and the selector reload (rule R167), and the CPU's accessed-bit write (rule R30). -/

namespace Sys2Proof.Machine

open Sys2Proof

/-- The kernel code descriptor's bytes (rule R106). -/
def kernelCodeSlot : Slot := ⟨0xFF#8, 0xFF#8, 0x00#8, 0x00#8, 0x00#8, 0x9A#8, 0xCF#8, 0x00#8⟩

/-- The kernel data descriptor's bytes (rule R106). -/
def kernelDataSlot : Slot := ⟨0xFF#8, 0xFF#8, 0x00#8, 0x00#8, 0x00#8, 0x92#8, 0xCF#8, 0x00#8⟩

/-- A slot holds the descriptor with the bytes `D`. The accessed bit and the two unnamed bits of byte 6 are not compared:
rule R187 admits either value of the first, and the second are `SEG_B6_RSVD`'s (log 13). -/
def slotDescribes (B D : Slot) : Bool :=
  B.b0 == D.b0 && B.b1 == D.b1 && B.b2 == D.b2 && B.b3 == D.b3 && B.b4 == D.b4 &&
    B.b5 ||| 0x01#8 == D.b5 ||| 0x01#8 && B.b6 ||| 0x30#8 == D.b6 ||| 0x30#8 && B.b7 == D.b7

/-- A slot holds a present, privilege-0 32-bit interrupt gate (rules R125 and R184), whatever its handler and its selector:
both are "unchecked" (rule R199, U16). -/
def isExceptionGate (B : Slot) : Bool := B.b4 == 0x00#8 && B.b5 == 0x8E#8

/-- The table a descriptor names lies where a table may be built: 8-byte aligned and inside `StorageRegion`
(the placement of 70_reset_and_hazards.md section 2, D13). -/
def tablePlaced (r : TableReg) (s : State) : Bool :=
  aligned8 r.base && s.storageRegion.covers r.base (r.size1.toNat + 1)

/-- The segment table is built per rule R183: 3 entries, the second and third the kernel code and kernel data descriptors.
The null entry is not read: its bytes may have any value (rule R192, U10). -/
def segmentTableBuilt (r : TableReg) (s : State) : Bool :=
  r.size1.toNat + 1 == 8 * Config.gdtEntries && tablePlaced r s &&
    slotDescribes (s.readSlot (r.base + 8#32)) kernelCodeSlot && slotDescribes (s.readSlot (r.base + 16#32)) kernelDataSlot

/-- Slot `v` of a table, at `base + 8 * v`. -/
def TableReg.entry (r : TableReg) (v : Nat) : Word := r.base + BitVec.ofNat 32 (8 * v)

/-- The interrupt table is built per rule R184: 256 entries, the first 32 exception gates. The slots 32 to 255 are not read:
their bytes may have any value (rule R192, U10). -/
def interruptTableBuilt (r : TableReg) (s : State) : Bool :=
  r.size1.toNat + 1 == 8 * Config.idtEntries && tablePlaced r s &&
    (List.range Config.exceptionVectors).all fun v => isExceptionGate (s.readSlot (r.entry v))

/-- The table descriptor in a slot, `TDESC_FIELDS(Mem[slot .. slot+5])` (rule R167). -/
def readTableDescriptor (slot : Word) (s : State) : TableReg :=
  let t := tdescFields (s.readSlot slot)
  ⟨t.base, t.size1⟩

/-- The record stands where a table descriptor may stand: 8-byte aligned (rule R7), its 6 bytes inside
`StorageRegion` (D13). -/
def descriptorPlaced (slot : Word) (s : State) : Bool :=
  aligned8 slot && s.storageRegion.covers slot 6

/-- `base + size1` passes `0xFFFFFFFF` (rule R167, U8). -/
def passesAddressSpace (r : TableReg) : Bool :=
  decide (addressCount ≤ r.base.toNat + r.size1.toNat)

/-- `env.lgdt slot` (rule R167): loads `GDTR` and activates the table; a malformed descriptor is refused. The
selector reload is then due (rule R185). -/
def envLgdt (slot : Word) (s : State) : StepResult :=
  let r := readTableDescriptor slot s
  if passesAddressSpace r then .refused (.tablePassesAddressSpace slot)
  else if !descriptorPlaced slot s || !segmentTableBuilt r s then .refused (.malformedTableDescriptor slot)
  else .next ((((s.withGdtr r).activate r).withReloadDue true).advance)

/-- `env.lidt slot` (rule R167): loads `IDTR` and activates the table; a malformed descriptor is refused. -/
def envLidt (slot : Word) (s : State) : StepResult :=
  let r := readTableDescriptor slot s
  if passesAddressSpace r then .refused (.tablePassesAddressSpace slot)
  else if !descriptorPlaced slot s || !interruptTableBuilt r s then .refused (.malformedTableDescriptor slot)
  else .next (((s.withIdtr r).activate r).advance)

/-- `env.reload cs, ds` (rule R167). -/
def envReload (cs ds : Half) (s : State) : StepResult :=
  .next (((s.withSelectors cs ds).withReloadDue false).advance)

/-- `env.cli` (rule R166). -/
def envCli (s : State) : StepResult := .next (s.setIF 0#1).advance

/-- `env.sti` (rule R166). -/
def envSti (s : State) : StepResult := .next (s.setIF 1#1).advance

/-- read-interrupt-enable: no state change but the program's own progress (rule R166); what it returns is
`State.readInterruptEnable` (log 16). -/
def envReadInterruptEnable (s : State) : StepResult := .next s.advance

/-- halt-until-next-interrupt (rule R166): no further step until an interrupt, which the model never delivers
(rule R169); `pc` stays, the item is not done (log 12). -/
def envHaltUntilInterrupt (s : State) : StepResult := .next (s.withHalt .untilInterrupt)

/-- halt-permanently (rule R166): `IF <- 0`, then no further step. -/
def envHaltPermanently (s : State) : StepResult := .next ((s.setIF 0#1).withHalt .permanently)

/-- The environment's step an item names (rules R166 and R167). -/
def execEnv (e : EnvStep) (s : State) : StepResult :=
  match e with
  | .cli => envCli s
  | .sti => envSti s
  | .readInterruptEnable => envReadInterruptEnable s
  | .haltUntilInterrupt => envHaltUntilInterrupt s
  | .haltPermanently => envHaltPermanently s
  | .lgdt slot => envLgdt slot s
  | .lidt slot => envLidt slot s
  | .reload cs ds => envReload cs ds s

/-- `addr = slot + 5` for a slot inside `ActiveRegions` (rule R30). -/
def accessedAllowed (addr : Word) (s : State) : Bool :=
  addr.extractLsb' 0 3 == 5#3 && s.activeRegions.covers (addr - 5#32) 8

/-- `EnvSetAccessed(addr)` (rule R30): `Mem[addr] <- Mem[addr] | 0x01`. It is the CPU's step, not an item of the
program: `pc` stays. -/
def envSetAccessed (addr : Word) (s : State) : StepResult :=
  if accessedAllowed addr s then .next (s.storeBytes addr [s.readByte addr ||| 0x01#8])
  else .refused (.accessedOutsideActiveTable addr)

end Sys2Proof.Machine
end

