-- ==== Sys2Proof/Machine/Fetch.lean ====
section
/-! DEFINITION. What a step runs: whether a step is enabled (spec rules R165 and R166), whose turn it is (rule
R30), the program's next item (rule R22), and the decoder's fault (rule R68). `Step.lean` only calls these. -/

namespace Sys2Proof.Machine

open Sys2Proof

/-- The next item of the program: the one at index `pc` (rule R22). -/
def State.nextItem (s : State) : Option ProgItem := s.program[s.pc]?

/-- Only `env.reload` may stand right after `env.lgdt` (rule R185). -/
def ProgItem.isReload : ProgItem → Bool
  | .env (.reload _ _) => true
  | _ => false

/-- One item: a command word is decoded, and a word that spells no command raises `ReservedCommand(W)` (rule R68);
an environment step takes its effect. -/
def runItem (it : ProgItem) (s : State) : StepResult :=
  match it with
  | .word W =>
    match decode W with
    | .ok i => exec i s
    | .error _ => raise (.reservedCommand W) s
  | .env e => execEnv e s

/-- The program's turn (rules R22, R185 and R196). -/
def programTurn (s : State) : StepResult :=
  match s.nextItem with
  | none => .refused .endOfProgram
  | some it => if s.reloadDue && !it.isReload then .refused .stepBeforeReload else runItem it s

/-- The schedule's next turn; when no turn is listed the program moves (log 10). -/
def takeTurn (s : State) : StepResult :=
  match s.turns with
  | [] => programTurn s
  | .program :: rest => programTurn (s.withTurns rest)
  | .setAccessed addr :: rest => envSetAccessed addr (s.withTurns rest)

/-- Why no step is enabled, if none is: a recorded fault (rule R165) or a halt (rule R166). -/
def stopped (s : State) : Option Fault :=
  match s.fault with
  | some f => some (.faulted f)
  | none =>
    match s.halt with
    | .running => none
    | .untilInterrupt => some .haltedUntilInterrupt
    | .permanently => some .haltedPermanently

/-- The program with `W` as its item number `n`; a shorter program is filled up to `n` with words 0 (log 22). -/
def placeItem (program : List ProgItem) (n : Nat) (it : ProgItem) : List ProgItem :=
  program.take n ++ List.replicate (n - program.length) (.word 0#128) ++ it :: program.drop (n + 1)

/-- The state with `W` as the item the next step runs: placed at index `pc`, on the program's turn, with nothing
that keeps the step from being enabled (log 22). -/
def State.withNextWord (s : State) (W : Command) : State :=
  { s with
    program := placeItem s.program s.pc (.word W), turns := .program :: s.turns,
    fault := none, halt := .running, reloadDue := false }

end Sys2Proof.Machine
end

