-- ==== Sys2Proof/Machine/Step.lean ====
section
/-! DEFINITION. One step of the block and its environment (spec rules R22, R30, R165 and R166). -/

namespace Sys2Proof.Machine

open Sys2Proof

/-- One step: none is enabled after a fault or a halt; otherwise the turn's. -/
def step (s : State) : Host.Outcome State Fault Refusal :=
  match stopped s with
  | some r => .fault r
  | none => takeTurn s

/-- The state whose next step runs the instruction with bits `w`, numbered as the opcode table numbers them; the
bits above `nbits` are 0. Commands are not in storage (rule R22): the word is placed in the program (log 22). -/
def State.withFetchWord (s : State) (nbits w : Nat) : State :=
  s.withNextWord (BitVec.ofNat 128 (w % 2 ^ nbits))

end Sys2Proof.Machine
end

