-- ==== Sys2Proof/Machine/Assembler.lean ====
section
/-! DEFINITION. The assembler syntax of spec rules R76 to R78: one command per line, mnemonic first, then the
destination, then `key=value` operands in any order, separated by commas; numbers decimal or `0x` hex; a symbol plus
a constant for an address; `;` starts a comment. What the rules leave open of the text is in log 20. -/

namespace Sys2Proof.Machine

open Sys2Proof

/-- A line of text. -/
abbrev Text := List Char

/-- The assembly errors. Rule R76 names one, a value that does not fit its port; the others are lines the syntax
does not give (log 20). -/
inductive AsmError where
  | unknownMnemonic
  | wrongOperands
  | badNumber
  | unknownSymbol
  | unknownKey
  | repeatedKey
  | missingKey
  /-- "A value that does not fit its port width is an assembly error, not a truncation" (rule R76). -/
  | doesNotFit
  /-- `tabdesc` with `n` outside `1 .. 8192` (rule R77). -/
  | entriesOutOfRange
  deriving DecidableEq, Repr

/-- An assembled line: a command of the block or an environment step (rule R78). -/
inductive AsmItem where
  | command (i : Instr)
  | env (e : EnvStep)
  deriving DecidableEq, Repr

/-- The symbols and their values (rule R76). -/
abbrev Symbols := List (Text × Nat)

/-- White space inside a line. -/
def isBlank (c : Char) : Bool := c == ' ' || c == '\t' || c == '\r'

/-- A text without the white space at its ends. -/
def trim (t : Text) : Text := ((t.dropWhile isBlank).reverse.dropWhile isBlank).reverse

/-- The parts of a text between separators. -/
def splitText (sep : Char) : Text → List Text
  | [] => [[]]
  | c :: rest =>
    match splitText sep rest with
    | [] => [[c]]
    | part :: parts => if c = sep then [] :: part :: parts else (c :: part) :: parts

/-- The value of a decimal or hexadecimal digit. -/
def digitValue (c : Char) : Option Nat :=
  let n := c.toNat
  if 48 ≤ n ∧ n ≤ 57 then some (n - 48)
  else if 97 ≤ n ∧ n ≤ 102 then some (n - 87)
  else if 65 ≤ n ∧ n ≤ 70 then some (n - 55)
  else none

/-- Digits of a radix after the value `acc`. -/
def digits (radix : Nat) : Nat → Text → Option Nat
  | acc, [] => some acc
  | acc, c :: rest =>
    match digitValue c with
    | none => none
    | some d => if d < radix then digits radix (acc * radix + d) rest else none

/-- "Numbers are decimal or `0x` hex" (rule R76). -/
def number : Text → Option Nat
  | [] => none
  | ['0', 'x'] => none
  | '0' :: 'x' :: rest => digits 16 0 rest
  | t => digits 10 0 t

/-- A number, or an assembly error. -/
def numberOperand (t : Text) : Except AsmError Nat :=
  match number t with
  | none => .error .badNumber
  | some n => .ok n

/-- A symbol's value. -/
def symbolValue (symbols : Symbols) (t : Text) : Except AsmError Nat :=
  match symbols.lookup t with
  | none => .error .unknownSymbol
  | some n => .ok n

/-- An address: a number, a symbol, or a symbol plus a constant (rule R76). -/
def addressOperand (symbols : Symbols) (t : Text) : Except AsmError Nat :=
  match number t with
  | some n => .ok n
  | none =>
    match splitText '+' t with
    | [name] => symbolValue symbols name
    | [name, c] => do
      let base ← symbolValue symbols (trim name)
      let offset ← numberOperand (trim c)
      return base + offset
    | _ => .error .wrongOperands

/-- A value at its port's width; one that does not fit is an error, not a truncation (rule R76). -/
def fit (w n : Nat) : Except AsmError (BitVec w) :=
  if n < 2 ^ w then .ok (BitVec.ofNat w n) else .error .doesNotFit

/-- An address at the width of an address port. -/
def wordOperand (symbols : Symbols) (t : Text) : Except AsmError Word := do
  fit 32 (← addressOperand symbols t)

/-- One `key=value` operand. -/
def keyOperand (t : Text) : Except AsmError (Text × Nat) :=
  match splitText '=' t with
  | [k, v] => do return (trim k, ← numberOperand (trim v))
  | _ => .error .wrongOperands

/-- The `key=value` operands of a line: every key is one of `allowed`, none stands twice. -/
def keyOperands (allowed : List Text) (ops : List Text) : Except AsmError (List (Text × Nat)) := do
  let kvs ← ops.mapM keyOperand
  if !kvs.all fun kv => allowed.contains kv.1 then .error .unknownKey
  else if decide (kvs.map Prod.fst).Nodup then return kvs
  else .error .repeatedKey

/-- A required key's value at its port's width (rule R76). -/
def requiredKey (kvs : List (Text × Nat)) (key : String) (w : Nat) : Except AsmError (BitVec w) :=
  match kvs.lookup key.toList with
  | none => .error .missingKey
  | some n => fit w n

/-- A key that defaults to 0 (rule R76: `a` and `s`). -/
def optionalKey (kvs : List (Text × Nat)) (key : String) (w : Nat) : Except AsmError (BitVec w) :=
  match kvs.lookup key.toList with
  | none => .ok 0#w
  | some n => fit w n

/-- The keys of `segenc` (rule R76). -/
def segKeys : List Text :=
  ["base".toList, "limit".toList, "p".toList, "dpl".toList, "x".toList, "dc".toList, "rw".toList, "a".toList,
   "g".toList, "db".toList]

/-- The keys of `gateenc` (rule R76). -/
def gateKeys : List Text :=
  ["off".toList, "sel".toList, "kind".toList, "s".toList, "dpl".toList, "p".toList]

/-- The keys of `tdescenc` (rule R76). -/
def tdescKeys : List Text := ["base".toList, "size1".toList]

/-- The source of a `segenc` line (rule R76). -/
def segOperands (ops : List Text) : Except AsmError SegSource := do
  let kvs ← keyOperands segKeys ops
  return {
    base := ← requiredKey kvs "base" 32, limit := ← requiredKey kvs "limit" 32, p := ← requiredKey kvs "p" 1,
    dpl := ← requiredKey kvs "dpl" 2, x := ← requiredKey kvs "x" 1, dc := ← requiredKey kvs "dc" 1,
    rw := ← requiredKey kvs "rw" 1, a := ← optionalKey kvs "a" 1, g := ← requiredKey kvs "g" 1,
    db := ← requiredKey kvs "db" 1 }

/-- The source of a `gateenc` line (rule R76). -/
def gateOperands (ops : List Text) : Except AsmError GateSource := do
  let kvs ← keyOperands gateKeys ops
  return {
    off := ← requiredKey kvs "off" 32, sel := ← requiredKey kvs "sel" 16, kind := ← requiredKey kvs "kind" 4,
    s := ← optionalKey kvs "s" 1, dpl := ← requiredKey kvs "dpl" 2, p := ← requiredKey kvs "p" 1 }

/-- The source of a `tdescenc` line (rule R76). -/
def tdescOperands (ops : List Text) : Except AsmError TdescSource := do
  let kvs ← keyOperands tdescKeys ops
  return { base := ← requiredKey kvs "base" 32, size1 := ← requiredKey kvs "size1" 16 }

/-- The operands of a line: the parts between commas. -/
def operandTexts (t : Text) : List Text :=
  if trim t = [] then [] else (splitText ',' t).map trim

/-- One line's mnemonic and operands (rules R76 to R78). -/
def assembleOperands (symbols : Symbols) (mnemonic : Text) (ops : List Text) : Except AsmError AsmItem :=
  if mnemonic = "segenc".toList then
    match ops with
    | dst :: rest => do return .command (.segEncode (← wordOperand symbols dst) (← segOperands rest))
    | _ => .error .wrongOperands
  else if mnemonic = "gateenc".toList then
    match ops with
    | dst :: rest => do return .command (.gateEncode (← wordOperand symbols dst) (← gateOperands rest))
    | _ => .error .wrongOperands
  else if mnemonic = "tdescenc".toList then
    match ops with
    | dst :: rest => do return .command (.tdescEncode (← wordOperand symbols dst) (← tdescOperands rest))
    | _ => .error .wrongOperands
  else if mnemonic = "kcode".toList then
    match ops with
    | [dst] => do return .command (kcode (← wordOperand symbols dst))
    | _ => .error .wrongOperands
  else if mnemonic = "kdata".toList then
    match ops with
    | [dst] => do return .command (kdata (← wordOperand symbols dst))
    | _ => .error .wrongOperands
  else if mnemonic = "intgate32".toList then
    match ops with
    | [dst, off, sel] => do
      return .command (intgate32 (← wordOperand symbols dst) (← wordOperand symbols off) (← fit 16 (← numberOperand sel)))
    | _ => .error .wrongOperands
  else if mnemonic = "tabdesc".toList then
    match ops with
    | [dst, base, n] => do
      match tabdesc (← wordOperand symbols dst) (← wordOperand symbols base) (← numberOperand n) with
      | none => .error .entriesOutOfRange
      | some i => return .command i
    | _ => .error .wrongOperands
  else if mnemonic = "env.cli".toList then
    match ops with
    | [] => .ok (.env .cli)
    | _ => .error .wrongOperands
  else if mnemonic = "env.sti".toList then
    match ops with
    | [] => .ok (.env .sti)
    | _ => .error .wrongOperands
  else if mnemonic = "env.lgdt".toList then
    match ops with
    | [slot] => do return .env (.lgdt (← wordOperand symbols slot))
    | _ => .error .wrongOperands
  else if mnemonic = "env.lidt".toList then
    match ops with
    | [slot] => do return .env (.lidt (← wordOperand symbols slot))
    | _ => .error .wrongOperands
  else if mnemonic = "env.reload".toList then
    match ops with
    | [cs, ds] => do return .env (.reload (← fit 16 (← numberOperand cs)) (← fit 16 (← numberOperand ds)))
    | _ => .error .wrongOperands
  else .error .unknownMnemonic

/-- One line; a line with nothing but a comment assembles to nothing (rule R76). -/
def assembleLine (symbols : Symbols) (line : Text) : Except AsmError (Option AsmItem) :=
  let t := trim (line.takeWhile fun c => c != ';')
  if t = [] then .ok none
  else do
    let item ← assembleOperands symbols (t.takeWhile fun c => !isBlank c) (operandTexts (t.dropWhile fun c => !isBlank c))
    return some item

/-- The program item of an assembled line: a command's word (rules R65 to R67), or the environment step. -/
def AsmItem.toItem : AsmItem → ProgItem
  | .command i => .word (encode i)
  | .env e => .env e

/-- A listing, one command or environment step a line (rules R76 and R78). -/
def assemble (symbols : Symbols) (listing : Text) : Except AsmError (List ProgItem) := do
  let items ← (splitText '\n' listing).mapM (assembleLine symbols)
  return (items.filterMap id).map AsmItem.toItem

end Sys2Proof.Machine
end

