-- ==== Sys2Proof/Safety.lean ====
section
/-! DEFINITION. The words claims are stated in: when a step is enabled and whose it is, what admission asks (spec rule
R162) in plain quantifiers, a command's footprint (rule R44), how a run ends (rule R196), and the invariant that every
step keeps. -/

namespace Sys2Proof.Machine

open Sys2Proof

/-- A step is enabled: no fault is recorded and the environment has not halted (rules R165 and R166). -/
def State.enabled (s : State) : Prop := s.fault = none ∧ s.halt = .running

/-- It is the program's turn, and `rest` is the schedule left after it (rule R30, log 10). -/
def State.programMoves (s : State) (rest : List Turn) : Prop :=
  (s.turns = [] ∧ rest = []) ∨ s.turns = .program :: rest

/-- The next step runs the item `it` of the program: a step is enabled, the program moves, `it` is the item at `pc`,
and no selector reload is due (rules R22 and R185). -/
def State.issues (s : State) (rest : List Turn) (it : ProgItem) : Prop :=
  s.enabled ∧ s.programMoves rest ∧ s.program[s.pc]? = some it ∧ s.reloadDue = false

/-- The address is one of `dst .. dst + n - 1`. -/
def inFootprint (dst : Word) (n a : Nat) : Prop := dst.toNat ≤ a ∧ a < dst.toNat + n

/-- How many bytes a command writes (rule R44). -/
def footprintOf : Instr → Nat
  | .segEncode _ _ => 8
  | .gateEncode _ _ => 8
  | .tdescEncode _ _ => 6

/-- A command with `n` footprint bytes at `dst` passes every test of rule R162 after the first: `IF = 0`, `dst` is
8-byte aligned, every footprint byte is in `StorageRegion` and none is in `ActiveRegions`. -/
structure State.admits (s : State) (dst : Word) (n : Nat) : Prop where
  interruptsOff : s.IF = 0#1
  aligned       : dst.toNat % 8 = 0
  inStorage     : ∀ k, k < n → s.storageRegion.contains (dst.toNat + k) = true
  notActive     : ∀ k, k < n → s.activeRegions.contains (dst.toNat + k) = false

/-- Everything but `pc`, the storage and the fault record is the same: what no command writes (10_state.md section 2,
rules R24 and R27). -/
structure State.sameEnvironment (s t : State) : Prop where
  flags         : t.flags = s.flags
  activeRegions : t.activeRegions = s.activeRegions
  storageRegion : t.storageRegion = s.storageRegion
  gdtr          : t.gdtr = s.gdtr
  idtr          : t.idtr = s.idtr
  codeSel       : t.codeSel = s.codeSel
  dataSel       : t.dataSel = s.dataSel
  segB6Rsvd     : t.segB6Rsvd = s.segB6Rsvd
  program       : t.program = s.program
  halt          : t.halt = s.halt
  reloadDue     : t.reloadDue = s.reloadDue
  turns         : t.turns = s.turns

/-- The word spells no command: `OP = 0b11`, or a bit that rules R65 to R67 fix at 0 is 1 (rule R68), bit by bit as
those rules list them. -/
def wordIsReserved (W : Command) : Prop :=
  W.extractLsb' 0 2 = 3#2 ∨ W.extractLsb' 2 14 ≠ 0#14 ∨
  (W.extractLsb' 0 2 = 0#2 ∧ (W.extractLsb' 20 1 ≠ 0#1 ∨ W.extractLsb' 24 6 ≠ 0#6)) ∨
  (W.extractLsb' 0 2 = 1#2 ∧ (W.extractLsb' 24 8 ≠ 0#8 ∨ W.extractLsb' 48 16 ≠ 0#16)) ∨
  (W.extractLsb' 0 2 = 2#2 ∧ (W.extractLsb' 16 16 ≠ 0#16 ∨ W.extractLsb' 48 16 ≠ 0#16))

/-- Two slots agree in every bit that the mask `m` leaves 0. -/
def slotsAgreeOutside (m B C : Slot) : Prop :=
  B.b0 &&& ~~~m.b0 = C.b0 &&& ~~~m.b0 ∧ B.b1 &&& ~~~m.b1 = C.b1 &&& ~~~m.b1 ∧
  B.b2 &&& ~~~m.b2 = C.b2 &&& ~~~m.b2 ∧ B.b3 &&& ~~~m.b3 = C.b3 &&& ~~~m.b3 ∧
  B.b4 &&& ~~~m.b4 = C.b4 &&& ~~~m.b4 ∧ B.b5 &&& ~~~m.b5 = C.b5 &&& ~~~m.b5 ∧
  B.b6 &&& ~~~m.b6 = C.b6 &&& ~~~m.b6 ∧ B.b7 &&& ~~~m.b7 = C.b7 &&& ~~~m.b7

/-- "A run of a program ends successfully when `pc` equals the program's length and `fault = none`" (rule R196). -/
def State.succeeded (s : State) : Prop := s.pc = s.program.length ∧ s.fault = none

/-- "A run ends in failure when `fault` is set or when the environment halts permanently" (rule R196). -/
def State.failed (s : State) : Prop := s.fault ≠ none ∨ s.halt = .permanently

/-- "A run is stuck, and has not ended, when a halt-until-next-interrupt has no interrupt to wake it" (rule R196). -/
def State.stuck (s : State) : Prop := s.halt = .untilInterrupt

/-- The addresses `base .. base + size1` of a loaded table (rule R25). -/
def TableReg.holds (r : TableReg) (a : Nat) : Prop :=
  r.base.toNat ≤ a ∧ a ≤ r.base.toNat + r.size1.toNat

/-- A table-base register holds a table of the address space all of whose bytes are active (rules R25 and R167). -/
def tableActive (reg : Option TableReg) (set : AddrSet) : Prop :=
  ∀ r, reg = some r →
    r.base.toNat + r.size1.toNat < addressCount ∧ ∀ a, r.holds a → set.contains a = true

/-- `n` bytes from an 8-byte aligned address on, all of them in `StorageRegion`: where a table or a table descriptor may be
built (rule R43, D13). -/
def State.provides (s : State) (a : Word) (n : Nat) : Prop :=
  a.toNat % 8 = 0 ∧ ∀ k, k < n → s.storageRegion.contains (a.toNat + k) = true

/-- The table descriptor at `slot`, which names the table `r`, stands where it may, and the segment table is built per rule
R183, its bytes those of rule R106 but for the accessed bit and bits 5:4 of byte 6 (log 13). The null entry may hold any
bytes (rule R192, U10). -/
structure State.segmentTableLoadable (s : State) (slot : Word) (r : TableReg) : Prop where
  recordPlace : s.provides slot 6
  tablePlace  : s.provides r.base (r.size1.toNat + 1)
  size        : r.size1 = 0x0017#16
  code        : slotsAgreeOutside ⟨0#8, 0#8, 0#8, 0#8, 0#8, 0x01#8, 0x30#8, 0#8⟩ (s.readSlot (r.base + 8#32))
    ⟨0xFF#8, 0xFF#8, 0x00#8, 0x00#8, 0x00#8, 0x9A#8, 0xCF#8, 0x00#8⟩
  data        : slotsAgreeOutside ⟨0#8, 0#8, 0#8, 0#8, 0#8, 0x01#8, 0x30#8, 0#8⟩ (s.readSlot (r.base + 16#32))
    ⟨0xFF#8, 0xFF#8, 0x00#8, 0x00#8, 0x00#8, 0x92#8, 0xCF#8, 0x00#8⟩

/-- The table descriptor at `slot`, which names the table `r`, stands where it may, and the interrupt table is built per rule
R184: each of its first 32 slots a present, privilege-0 32-bit interrupt gate, with any handler and selector (rule R199, U16);
the other slots may hold any bytes (rule R192, U10). -/
structure State.interruptTableLoadable (s : State) (slot : Word) (r : TableReg) : Prop where
  recordPlace : s.provides slot 6
  tablePlace  : s.provides r.base (r.size1.toNat + 1)
  size        : r.size1 = 0x07FF#16
  gates       : ∀ v, v < 32 →
    s.mem.read (r.base.toNat + 8 * v + 4) = 0x00#8 ∧ s.mem.read (r.base.toNat + 8 * v + 5) = 0x8E#8

/-- What every step keeps: the storage and both address sets in canonical form (logs 3 and 17), every loaded table active
(rules R25 and R167), interrupts off after halt-permanently (rule R166), and `pc` within the program (rule R22 for commands,
log 2 for the environment's steps). Two clauses are the model's choices: that a due reload comes only after a segment-table
load is about the model's own field (log 14), and that `pc` is short of the program's end while a halt lasts rests on a halt
leaving `pc` (log 12). -/
structure State.Inv (s : State) : Prop where
  memCanonical     : s.mem.wf = true
  activeCanonical  : s.activeRegions.wf = true
  storageCanonical : s.storageRegion.wf = true
  gdtActive        : tableActive s.gdtr s.activeRegions
  idtActive        : tableActive s.idtr s.activeRegions
  reloadAfterLoad  : s.reloadDue = true → s.gdtr ≠ none
  permanentOff     : s.halt = .permanently → s.IF = 0#1
  pcInProgram      : s.pc ≤ s.program.length
  haltInProgram    : s.halt ≠ .running → s.pc < s.program.length

end Sys2Proof.Machine
end

