-- ==== Sys2Proof/Certificates/Slice0/Obligations.lean ====
section
/-! DEFINITION. The statements for the provers, from the numbered rules of the spec. A next state is written as a record
update of the old one, so that what an instruction leaves unchanged is said with what it changes; the storage is spoken of
through the read of one byte. `s.admits dst n` (Safety.lean) is what the tests of rule R162 ask of the state and the
operands; `s.issues rest it` says that the next step is the program's and runs the item `it`. -/

open Sys2Proof Sys2Proof.Machine

/-! ### Commands and their words -/

/-- Rules R63 to R67: decoding the word of any command gives the command, every port at every value. -/
def Obligations.DecodeOfEncodeIsTheCommand : Prop :=
  ∀ i : Instr, decode (encode i) = .ok i

/-- Rules R63 to R68: a word that decodes is the word of the command it decodes to, so no bit of it is dropped. -/
def Obligations.EncodeOfDecodeIsTheWord : Prop :=
  ∀ (W : Command) (i : Instr), decode W = .ok i → encode i = W

/-- Rule R79: no word matches two rows, a word decodes exactly when it matches a row, and it decodes to that row's
command. -/
def Obligations.WordsDecodeByTheirOneRow : Prop :=
  ∀ W : Command,
    (∀ r ∈ opcodeTable, ∀ r' ∈ opcodeTable,
      W &&& r.mask = r.pattern → W &&& r'.mask = r'.pattern → r = r') ∧
    ((∃ i, decode W = .ok i) ↔ ∃ r ∈ opcodeTable, W &&& r.mask = r.pattern) ∧
    ∀ i, decode W = .ok i → i.row ∈ opcodeTable ∧ W &&& i.row.mask = i.row.pattern

/-- Rule R68: a word with the reserved operation or a reserved bit set raises `ReservedCommand(W)` and nothing else
changes; every other word is a command; bits 31:20 of SEG_ENCODE's limit are accepted and ignored. -/
def Obligations.ReservedWordsRaiseReservedCommand : Prop :=
  ∀ (s : State) (rest : List Turn) (W : Command), s.issues rest (.word W) →
    (wordIsReserved W → step s = .next { s with turns := rest, fault := some (.reservedCommand W) }) ∧
    (¬ wordIsReserved W → ∃ i, decode W = .ok i) ∧
    ∀ (dst : Word) (src : SegSource) (limit : Word), s.admits dst 8 →
      limit.extractLsb' 0 20 = src.limit.extractLsb' 0 20 →
      exec (.segEncode dst { src with limit := limit }) s = exec (.segEncode dst src) s

/-- Words written out in 95_test_vectors.md (S6, S12, G5, T5) decode to the commands they stand for, and F1 to F3 are
rejected. -/
def Obligations.WordsOfTheTestVectorsDecode : Prop :=
  decode 0x0000100812345678000ABCDE00820000#128 =
    .ok (.segEncode 0x1008#32 ⟨0x12345678#32, 0xABCDE#32, 1#1, 0#2, 0#1, 0#1, 1#1, 0#1, 0#1, 0#1⟩) ∧
  decode 0x000010080020000000000FFF40860000#128 =
    .ok (.segEncode 0x1008#32 ⟨0x200000#32, 0xFFF#32, 1#1, 0#2, 0#1, 1#1, 1#1, 0#1, 0#1, 1#1⟩) ∧
  decode 0x00002000001012340000000800EF0001#128 =
    .ok (.gateEncode 0x2000#32 ⟨0x101234#32, 0x0008#16, 0xF#4, 0#1, 3#2, 1#1⟩) ∧
  decode 0x00003000123456780000ABCD00000002#128 = .ok (.tdescEncode 0x3000#32 ⟨0x12345678#32, 0xABCD#16⟩) ∧
  decode 0x0000100800000000000FFFFFC08A0003#128 = .error .reservedOperation ∧
  decode 0x0000100800000000000FFFFFC09A0000#128 = .error .reservedBits ∧
  decode 0x000020000010000000010008008E0001#128 = .error .reservedBits

/-! ### What each command writes -/

/-- Rule R70: SEG_ENCODE completes with `pc + 1`, its 8 bytes are the segment descriptor's, bits 5:4 of byte 6 as
`SEG_B6_RSVD` says, every other byte of storage is as before, and nothing else changes. -/
def Obligations.SegEncodeWritesTheSegmentDescriptor : Prop :=
  ∀ (dst : Word) (src : SegSource) (s : State), s.mem.wf = true → s.admits dst 8 →
    ∃ m : Memory, exec (.segEncode dst src) s = .next { s with pc := s.pc + 1, mem := m } ∧
      m.read dst.toNat = src.limit.extractLsb' 0 8 ∧
      m.read (dst.toNat + 1) = src.limit.extractLsb' 8 8 ∧
      m.read (dst.toNat + 2) = src.base.extractLsb' 0 8 ∧
      m.read (dst.toNat + 3) = src.base.extractLsb' 8 8 ∧
      m.read (dst.toNat + 4) = src.base.extractLsb' 16 8 ∧
      ((m.read (dst.toNat + 5)).extractLsb' 0 1 = src.a ∧
        (m.read (dst.toNat + 5)).extractLsb' 1 1 = src.rw ∧
        (m.read (dst.toNat + 5)).extractLsb' 2 1 = src.dc ∧
        (m.read (dst.toNat + 5)).extractLsb' 3 1 = src.x ∧
        (m.read (dst.toNat + 5)).extractLsb' 4 1 = 1#1 ∧
        (m.read (dst.toNat + 5)).extractLsb' 5 2 = src.dpl ∧
        (m.read (dst.toNat + 5)).extractLsb' 7 1 = src.p) ∧
      ((m.read (dst.toNat + 6)).extractLsb' 0 4 = src.limit.extractLsb' 16 4 ∧
        (s.segB6Rsvd = .zero → (m.read (dst.toNat + 6)).extractLsb' 4 2 = 0#2) ∧
        (s.segB6Rsvd = .preserve →
          (m.read (dst.toNat + 6)).extractLsb' 4 2 = (s.mem.read (dst.toNat + 6)).extractLsb' 4 2) ∧
        (m.read (dst.toNat + 6)).extractLsb' 6 1 = src.db ∧
        (m.read (dst.toNat + 6)).extractLsb' 7 1 = src.g) ∧
      m.read (dst.toNat + 7) = src.base.extractLsb' 24 8 ∧
      ∀ a, ¬ inFootprint dst 8 a → m.read a = s.mem.read a

/-- Rule R71: GATE_ENCODE completes with `pc + 1`, its 8 bytes are the gate's, every other byte of storage is as before,
and nothing else changes. -/
def Obligations.GateEncodeWritesTheGate : Prop :=
  ∀ (dst : Word) (src : GateSource) (s : State), s.mem.wf = true → s.admits dst 8 →
    ∃ m : Memory, exec (.gateEncode dst src) s = .next { s with pc := s.pc + 1, mem := m } ∧
      m.read dst.toNat = src.off.extractLsb' 0 8 ∧
      m.read (dst.toNat + 1) = src.off.extractLsb' 8 8 ∧
      m.read (dst.toNat + 2) = src.sel.extractLsb' 0 8 ∧
      m.read (dst.toNat + 3) = src.sel.extractLsb' 8 8 ∧
      m.read (dst.toNat + 4) = 0x00#8 ∧
      ((m.read (dst.toNat + 5)).extractLsb' 0 4 = src.kind ∧
        (m.read (dst.toNat + 5)).extractLsb' 4 1 = src.s ∧
        (m.read (dst.toNat + 5)).extractLsb' 5 2 = src.dpl ∧
        (m.read (dst.toNat + 5)).extractLsb' 7 1 = src.p) ∧
      m.read (dst.toNat + 6) = src.off.extractLsb' 16 8 ∧
      m.read (dst.toNat + 7) = src.off.extractLsb' 24 8 ∧
      ∀ a, ¬ inFootprint dst 8 a → m.read a = s.mem.read a

/-- Rule R72: TDESC_ENCODE completes with `pc + 1`, its 6 bytes are the table descriptor's, every other byte of storage
is as before, the slot's bytes 6 and 7 among them, and nothing else changes. -/
def Obligations.TdescEncodeWritesTheTableDescriptor : Prop :=
  ∀ (dst : Word) (src : TdescSource) (s : State), s.mem.wf = true → s.admits dst 6 →
    ∃ m : Memory, exec (.tdescEncode dst src) s = .next { s with pc := s.pc + 1, mem := m } ∧
      m.read dst.toNat = src.size1.extractLsb' 0 8 ∧
      m.read (dst.toNat + 1) = src.size1.extractLsb' 8 8 ∧
      m.read (dst.toNat + 2) = src.base.extractLsb' 0 8 ∧
      m.read (dst.toNat + 3) = src.base.extractLsb' 8 8 ∧
      m.read (dst.toNat + 4) = src.base.extractLsb' 16 8 ∧
      m.read (dst.toNat + 5) = src.base.extractLsb' 24 8 ∧
      (m.read (dst.toNat + 6) = s.mem.read (dst.toNat + 6) ∧ m.read (dst.toNat + 7) = s.mem.read (dst.toNat + 7)) ∧
      ∀ a, ¬ inFootprint dst 6 a → m.read a = s.mem.read a

/-- Rules R24, R27 and R44, with no hypothesis on the state: a command always answers a next state; it writes nothing but
`pc`, the fault record and its footprint. -/
def Obligations.CommandsWriteOnlyTheirFootprint : Prop :=
  ∀ (i : Instr) (s : State), ∃ t, exec i s = .next t ∧ s.sameEnvironment t ∧
    ∀ a, ¬ inFootprint i.dst (footprintOf i) a → t.mem.read a = s.mem.read a

/-- Rules R106 and R77: on a zero slot the kernel code and kernel data commands write the bytes of rule R106, under both
values of `SEG_B6_RSVD`. -/
def Obligations.KernelDescriptorsHaveTheirBytes : Prop :=
  ∀ (dst : Word) (s : State), s.mem.wf = true → s.admits dst 8 →
    s.readSlot dst = ⟨0x00#8, 0x00#8, 0x00#8, 0x00#8, 0x00#8, 0x00#8, 0x00#8, 0x00#8⟩ →
    (∃ t, exec (kcode dst) s = .next t ∧
      t.readSlot dst = ⟨0xFF#8, 0xFF#8, 0x00#8, 0x00#8, 0x00#8, 0x9A#8, 0xCF#8, 0x00#8⟩) ∧
    (∃ t, exec (kdata dst) s = .next t ∧
      t.readSlot dst = ⟨0xFF#8, 0xFF#8, 0x00#8, 0x00#8, 0x00#8, 0x92#8, 0xCF#8, 0x00#8⟩)

/-- Rules R120 and R125: `intgate32` with the kernel code selector writes
`h[7:0] h[15:8] 08 00 00 8E h[23:16] h[31:24]` over any old bytes. -/
def Obligations.ExceptionGateHasItsBytes : Prop :=
  ∀ (dst h : Word) (s : State), s.mem.wf = true → s.admits dst 8 →
    ∃ t, exec (intgate32 dst h 0x0008#16) s = .next t ∧
      t.readSlot dst =
        ⟨h.extractLsb' 0 8, h.extractLsb' 8 8, 0x08#8, 0x00#8, 0x00#8, 0x8E#8, h.extractLsb' 16 8, h.extractLsb' 24 8⟩

/-! ### Field extraction and the laws of the encoders -/

/-- Rule R103: after SEG_ENCODE, `SEG_FIELDS` of the slot gives every field back, the limit whole when `WF_seg` holds and
its low 20 bits always, `sys = 1`, and `rsv = 0b00` under `zero`. -/
def Obligations.SegmentFieldsRoundTrip : Prop :=
  ∀ (dst : Word) (src : SegSource) (s : State), s.mem.wf = true → s.admits dst 8 →
    ∃ t, exec (.segEncode dst src) s = .next t ∧
      let f := segFields (t.readSlot dst)
      f.limit20 = src.limit.extractLsb' 0 20 ∧ (src.wf = true → f.limit20.toNat = src.limit.toNat) ∧
      f.base = src.base ∧ f.p = src.p ∧ f.dpl = src.dpl ∧ f.x = src.x ∧ f.dc = src.dc ∧ f.rw = src.rw ∧
      f.a = src.a ∧ f.g = src.g ∧ f.db = src.db ∧ f.sys = 1#1 ∧
      (s.segB6Rsvd = .zero → f.rsv = 0#2)

/-- Rules R122 and R123: after GATE_ENCODE, `GATE_FIELDS` of the slot gives every field back and the reserved byte is
`0x00`, for every input and every prior content of the slot. -/
def Obligations.GateFieldsRoundTrip : Prop :=
  ∀ (dst : Word) (src : GateSource) (s : State), s.mem.wf = true → s.admits dst 8 →
    ∃ t, exec (.gateEncode dst src) s = .next t ∧
      gateFields (t.readSlot dst) = ⟨src.off, src.sel, 0x00#8, src.kind, src.s, src.dpl, src.p⟩

/-- Rule R141: after TDESC_ENCODE, `TDESC_FIELDS` of the slot gives both fields back, and the command is idempotent: run
again on any state whose slot holds those bytes, it leaves the same bytes. -/
def Obligations.TableDescriptorFieldsRoundTrip : Prop :=
  ∀ (dst : Word) (src : TdescSource) (s : State), s.mem.wf = true → s.admits dst 6 →
    ∃ t, exec (.tdescEncode dst src) s = .next t ∧ tdescFields (t.readSlot dst) = src ∧
      ∀ u : State, u.mem.wf = true → u.admits dst 6 → u.readSlot dst = t.readSlot dst →
        ∃ v, exec (.tdescEncode dst src) u = .next v ∧ v.readSlot dst = t.readSlot dst

/-- Rule R105: SEG_ENCODE of the same operands a second time into the same slot, with nothing between that writes the
slot, leaves the same 8 bytes, under both values of `SEG_B6_RSVD`. -/
def Obligations.SegEncodeIsIdempotent : Prop :=
  ∀ (dst : Word) (src : SegSource) (s u : State), s.mem.wf = true → s.admits dst 8 → u.mem.wf = true →
    u.admits dst 8 → u.segB6Rsvd = s.segB6Rsvd →
    ∃ t, exec (.segEncode dst src) s = .next t ∧
      (u.readSlot dst = t.readSlot dst →
        ∃ v, exec (.segEncode dst src) u = .next v ∧ v.readSlot dst = t.readSlot dst)

/-- Rules R48 and R124: what GATE_ENCODE and TDESC_ENCODE write does not depend on the prior contents of the footprint;
what SEG_ENCODE writes depends on them only through bits 4 and 5 of byte 6, and only under `preserve`. -/
def Obligations.ResultsDependOnOldBytesOnlyAsStated : Prop :=
  (∀ (dst : Word) (src : GateSource) (s u : State), s.mem.wf = true → s.admits dst 8 → u.mem.wf = true → u.admits dst 8 →
    ∃ t v, exec (.gateEncode dst src) s = .next t ∧ exec (.gateEncode dst src) u = .next v ∧
      v.readSlot dst = t.readSlot dst) ∧
  (∀ (dst : Word) (src : TdescSource) (s u : State), s.mem.wf = true → s.admits dst 6 → u.mem.wf = true → u.admits dst 6 →
    ∃ t v, exec (.tdescEncode dst src) s = .next t ∧ exec (.tdescEncode dst src) u = .next v ∧
      ∀ k, k < 6 → v.mem.read (dst.toNat + k) = t.mem.read (dst.toNat + k)) ∧
  (∀ (dst : Word) (src : SegSource) (s u : State), s.mem.wf = true → s.admits dst 8 → u.mem.wf = true → u.admits dst 8 →
    u.segB6Rsvd = s.segB6Rsvd →
    ∃ t v, exec (.segEncode dst src) s = .next t ∧ exec (.segEncode dst src) u = .next v ∧
      slotsAgreeOutside ⟨0x00#8, 0x00#8, 0x00#8, 0x00#8, 0x00#8, 0x00#8, 0x30#8, 0x00#8⟩
        (t.readSlot dst) (v.readSlot dst) ∧
      ((s.segB6Rsvd = .zero ∨
          (s.mem.read (dst.toNat + 6)).extractLsb' 4 2 = (u.mem.read (dst.toNat + 6)).extractLsb' 4 2) →
        v.readSlot dst = t.readSlot dst))

/-- Rules R47, R105, R124 and R141: a command that completed, run again at once, completes and leaves the storage the
same data. -/
def Obligations.RepeatedCommandLeavesStorageIdentical : Prop :=
  ∀ (i : Instr) (s : State), s.mem.wf = true → s.admits i.dst (footprintOf i) →
    ∃ t u, exec i s = .next t ∧ exec i t = .next u ∧ u.mem = t.mem

/-- Rule R104: two sources that differ in one input give slots that agree in every bit but those of that input, and
differ if the input does (for the limit, if its low 20 bits do). -/
def Obligations.SegmentFieldsAreIndependent : Prop :=
  ∀ (dst : Word) (src src' : SegSource) (s : State), s.mem.wf = true → s.admits dst 8 →
    ∃ t t', exec (.segEncode dst src) s = .next t ∧ exec (.segEncode dst src') s = .next t' ∧
      let B := t.readSlot dst
      let C := t'.readSlot dst
      (src' = { src with a := src'.a } →
        slotsAgreeOutside ⟨0#8, 0#8, 0#8, 0#8, 0#8, 0x01#8, 0#8, 0#8⟩ B C ∧ (src'.a ≠ src.a → B ≠ C)) ∧
      (src' = { src with rw := src'.rw } →
        slotsAgreeOutside ⟨0#8, 0#8, 0#8, 0#8, 0#8, 0x02#8, 0#8, 0#8⟩ B C ∧ (src'.rw ≠ src.rw → B ≠ C)) ∧
      (src' = { src with dc := src'.dc } →
        slotsAgreeOutside ⟨0#8, 0#8, 0#8, 0#8, 0#8, 0x04#8, 0#8, 0#8⟩ B C ∧ (src'.dc ≠ src.dc → B ≠ C)) ∧
      (src' = { src with x := src'.x } →
        slotsAgreeOutside ⟨0#8, 0#8, 0#8, 0#8, 0#8, 0x08#8, 0#8, 0#8⟩ B C ∧ (src'.x ≠ src.x → B ≠ C)) ∧
      (src' = { src with dpl := src'.dpl } →
        slotsAgreeOutside ⟨0#8, 0#8, 0#8, 0#8, 0#8, 0x60#8, 0#8, 0#8⟩ B C ∧ (src'.dpl ≠ src.dpl → B ≠ C)) ∧
      (src' = { src with p := src'.p } →
        slotsAgreeOutside ⟨0#8, 0#8, 0#8, 0#8, 0#8, 0x80#8, 0#8, 0#8⟩ B C ∧ (src'.p ≠ src.p → B ≠ C)) ∧
      (src' = { src with db := src'.db } →
        slotsAgreeOutside ⟨0#8, 0#8, 0#8, 0#8, 0#8, 0#8, 0x40#8, 0#8⟩ B C ∧ (src'.db ≠ src.db → B ≠ C)) ∧
      (src' = { src with g := src'.g } →
        slotsAgreeOutside ⟨0#8, 0#8, 0#8, 0#8, 0#8, 0#8, 0x80#8, 0#8⟩ B C ∧ (src'.g ≠ src.g → B ≠ C)) ∧
      (src' = { src with base := src'.base } →
        slotsAgreeOutside ⟨0#8, 0#8, 0xFF#8, 0xFF#8, 0xFF#8, 0#8, 0#8, 0xFF#8⟩ B C ∧
          (src'.base ≠ src.base → B ≠ C)) ∧
      (src' = { src with limit := src'.limit } →
        slotsAgreeOutside ⟨0xFF#8, 0xFF#8, 0#8, 0#8, 0#8, 0#8, 0x0F#8, 0#8⟩ B C ∧
          (src'.limit.extractLsb' 0 20 ≠ src.limit.extractLsb' 0 20 → B ≠ C))

/-- Rules R75 and R191: a gate with the kernel code selector and no storage-segment flag meets `WF_gate` against a segment
table whose entry 1 is the slot `kcode` wrote, and its selector is not met where that slot holds `kdata`. -/
def Obligations.KernelCodeSlotMeetsTheGatePredicate : Prop :=
  ∀ (dst off : Word) (s : State) (B C : Slot), s.mem.wf = true → s.admits dst 8 →
    (∃ t, exec (kcode dst) s = .next t ∧
      (interruptGateSource off 0x0008#16).wf [B, t.readSlot dst, C] = true) ∧
    (∃ t, exec (kdata dst) s = .next t ∧
      (interruptGateSource off 0x0008#16).wf [B, t.readSlot dst, C] = false)

/-! ### Faults -/

/-- Rule R162: the tests of admission in their order, on the step that issues a word: the first that fails raises its
fault and nothing else changes; a word that passes them all completes. -/
def Obligations.FirstFailingTestRaisesItsFault : Prop :=
  ∀ (s : State) (rest : List Turn) (W : Command), s.issues rest (.word W) →
    let dst : Word := W.extractLsb' 96 32
    let raises := fun f : ModelFault => step s = .next { s with turns := rest, fault := some f }
    ((∀ r ∈ opcodeTable, W &&& r.mask ≠ r.pattern) → raises (.reservedCommand W)) ∧
    ∀ (r : OpRow) (n : Nat), (r, n) ∈ [(segRow, 8), (gateRow, 8), (tdescRow, 6)] → W &&& r.mask = r.pattern →
      (s.IF = 1#1 → raises (.interruptsEnabled W)) ∧
      (s.IF = 0#1 → dst.extractLsb' 0 3 ≠ 0#3 → raises (.slotMisaligned dst)) ∧
      (s.IF = 0#1 → dst.extractLsb' 0 3 = 0#3 →
        (∃ k, k < n ∧ s.storageRegion.contains (dst.toNat + k) = false) → raises (.slotOutOfStorage dst)) ∧
      (s.IF = 0#1 → dst.extractLsb' 0 3 = 0#3 →
        (∀ k, k < n → s.storageRegion.contains (dst.toNat + k) = true) →
        (∃ k, k < n ∧ s.activeRegions.contains (dst.toNat + k) = true) → raises (.writeToActiveTable dst)) ∧
      (s.IF = 0#1 → dst.extractLsb' 0 3 = 0#3 →
        (∀ k, k < n → s.storageRegion.contains (dst.toNat + k) = true) →
        (∀ k, k < n → s.activeRegions.contains (dst.toNat + k) = false) →
        ∃ t, step s = .next t ∧ t.fault = none ∧ t.pc = s.pc + 1)

/-- Rules R161 and R163: a command issued with `IF = 1` raises `InterruptsEnabled` and writes nothing; that the word recorded
for a command given to `exec` is its encoding is the model's reading (log 21). -/
def Obligations.CommandWithInterruptsEnabledFaults : Prop :=
  ∀ (i : Instr) (s : State), s.IF = 1#1 →
    exec i s = .next { s with fault := some (.interruptsEnabled (encode i)) }

/-- Rule R164, after the tests that rule R162 puts first: a command with a footprint byte in `ActiveRegions` raises
`WriteToActiveTable` and writes nothing. -/
def Obligations.CommandIntoActiveTableFaults : Prop :=
  ∀ (i : Instr) (s : State), s.IF = 0#1 → i.dst.toNat % 8 = 0 →
    (∀ k, k < footprintOf i → s.storageRegion.contains (i.dst.toNat + k) = true) →
    (∃ k, k < footprintOf i ∧ s.activeRegions.contains (i.dst.toNat + k) = true) →
    exec i s = .next { s with fault := some (.writeToActiveTable i.dst) }

/-- Rule R165: a step that faults changes the fault record and, beside the schedule, nothing else; what a command
records is one of its faults with the information rule R161 gives it, the recorded word being the command's encoding (the
model's reading, log 21); in a faulted state no step is enabled; a faulted state is no successful end of run. -/
def Obligations.FaultsArePreciseAndFinal : Prop :=
  (∀ (i : Instr) (s t : State) (f : ModelFault), s.fault = none → exec i s = .next t → t.fault = some f →
    f = .interruptsEnabled (encode i) ∨ f = .slotMisaligned i.dst ∨ f = .slotOutOfStorage i.dst ∨
      f = .writeToActiveTable i.dst) ∧
  (∀ (s t : State) (f : ModelFault), s.fault = none → step s = .next t → t.fault = some f →
    t = { s with turns := s.turns.tail, fault := some f }) ∧
  (∀ (s : State) (f : ModelFault), s.fault = some f → step s = .fault (.faulted f)) ∧
  (∀ s : State, s.fault ≠ none → ¬ s.succeeded)

/-! ### The program and its steps -/

/-- Rules R22 and R79: when the item at `pc` is a word that decodes to `i`, a step is `exec i`, on the schedule left after
the program's turn. -/
def Obligations.StepRunsTheDecodedCommand : Prop :=
  ∀ (s : State) (rest : List Turn) (W : Command) (i : Instr), s.issues rest (.word W) → decode W = .ok i →
    step s = exec i { s with turns := rest }

/-- Rule R22 and log 22: the word placed by `withFetchWord` is what the next step runs, whatever the program held. -/
def Obligations.PlacedWordIsRunNext : Prop :=
  ∀ (s : State) (nbits w : Nat) (i : Instr), decodeTableWord nbits w = some i →
    step (s.withFetchWord nbits w) = exec i { s.withFetchWord nbits w with turns := s.turns }

/-- Rule R22, and log 2 for the environment's steps: a command that completes advances `pc` by one, a faulting command
leaves it, and no step moves it otherwise. -/
def Obligations.ProgramIndexAdvancesByOneOrStays : Prop :=
  (∀ (i : Instr) (s : State), s.fault = none →
    ∃ t, exec i s = .next t ∧ (t.fault = none → t.pc = s.pc + 1) ∧ (t.fault ≠ none → t.pc = s.pc)) ∧
  (∀ s t : State, step s = .next t → t.pc = s.pc ∨ t.pc = s.pc + 1)

/-- Rules R8, R20 and R22: no step writes `StorageRegion`, `SEG_B6_RSVD` or the program. -/
def Obligations.LaunchParametersAreNeverWritten : Prop :=
  ∀ s t : State, step s = .next t →
    t.storageRegion = s.storageRegion ∧ t.segB6Rsvd = s.segB6Rsvd ∧ t.program = s.program

/-- Rules R24 and R166: a step changes the flags register only by `env.cli`, `env.sti` or halt-permanently, and then only
bit 9. -/
def Obligations.OnlyThePrimitivesWriteFlags : Prop :=
  ∀ s t : State, step s = .next t →
    (∀ j, j ≠ 9 → t.flags.getLsbD j = s.flags.getLsbD j) ∧
    (t.flags ≠ s.flags →
      s.program[s.pc]? = some (.env .cli) ∨ s.program[s.pc]? = some (.env .sti) ∨
      s.program[s.pc]? = some (.env .haltPermanently))

/-- Rules R25, R28 and R167: only the table loads change the table-base registers and `ActiveRegions`, each its own, and
only the selector reload changes the selectors. -/
def Obligations.OnlyTheLoaderWritesItsRegisters : Prop :=
  ∀ s t : State, step s = .next t →
    (t.gdtr ≠ s.gdtr → ∃ slot, s.program[s.pc]? = some (.env (.lgdt slot))) ∧
    (t.idtr ≠ s.idtr → ∃ slot, s.program[s.pc]? = some (.env (.lidt slot))) ∧
    (t.activeRegions ≠ s.activeRegions →
      ∃ slot, s.program[s.pc]? = some (.env (.lgdt slot)) ∨ s.program[s.pc]? = some (.env (.lidt slot))) ∧
    (t.codeSel ≠ s.codeSel ∨ t.dataSel ≠ s.dataSel → ∃ cs ds, s.program[s.pc]? = some (.env (.reload cs ds)))

/-- Rules R196 and R197, with the schedule of log 10 and the model's readings of `pc` in logs 2 and 12: from any state a run
takes no more steps than the items and turns that are left; after that the machine has stopped. -/
def Obligations.EveryRunEnds : Prop :=
  ∀ (s : State) (k : Nat), s.program.length - s.pc + s.turns.length < k →
    ∀ t : State, Host.Core.run core k s ≠ .next t

/-- Rule R196, with the model's choices of logs 9, 12 and 18: where no step is enabled the run has failed or is stuck, and
the other way round; where the program has no item left the run has succeeded, and the other way round on the program's
turn. -/
def Obligations.StoppedRunsHaveTheOutcomesOfTheSpec : Prop :=
  ∀ s : State, s.Inv →
    ((∃ f, step s = .fault f) ↔ s.failed ∨ s.stuck) ∧
    (step s = .refused .endOfProgram → s.succeeded) ∧
    (s.succeeded → (∃ rest, s.programMoves rest) → step s = .refused .endOfProgram)

/-! ### The environment's steps -/

/-- Rule R166: the five CPU primitives, with the model's choices of logs 2, 12 and 16: a primitive advances `pc`, a halt
does not, and the value read-interrupt-enable returns goes to no register. -/
def Obligations.CpuPrimitivesHaveTheirEffects : Prop :=
  ∀ (s : State) (rest : List Turn),
    (s.issues rest (.env .cli) →
      ∃ v, step s = .next { s with turns := rest, pc := s.pc + 1, flags := v } ∧
        v.getLsbD 9 = false ∧ ∀ j, j ≠ 9 → v.getLsbD j = s.flags.getLsbD j) ∧
    (s.issues rest (.env .sti) →
      ∃ v, step s = .next { s with turns := rest, pc := s.pc + 1, flags := v } ∧
        v.getLsbD 9 = true ∧ ∀ j, j ≠ 9 → v.getLsbD j = s.flags.getLsbD j) ∧
    (s.issues rest (.env .readInterruptEnable) →
      s.readInterruptEnable = s.flags.getLsbD 9 ∧ step s = .next { s with turns := rest, pc := s.pc + 1 }) ∧
    (s.issues rest (.env .haltUntilInterrupt) →
      ∃ t, step s = .next t ∧ t = { s with turns := rest, halt := .untilInterrupt } ∧
        step t = .fault .haltedUntilInterrupt) ∧
    (s.issues rest (.env .haltPermanently) →
      ∃ t v, step s = .next t ∧ t = { s with turns := rest, halt := .permanently, flags := v } ∧
        v.getLsbD 9 = false ∧ (∀ j, j ≠ 9 → v.getLsbD j = s.flags.getLsbD j) ∧
        step t = .fault .haltedPermanently)

/-- Rule R167, on a descriptor that log 13 counts as well-formed: `env.lgdt` reads base and size-minus-one little-endian
from the slot, loads `GDTR`, adds `base .. base + size1` to `ActiveRegions`, and makes the selector reload due (log 14).
That `pc` advances is log 2. The null entry may hold any bytes (rule R192). -/
def Obligations.SegmentTableLoadActivatesTheTable : Prop :=
  ∀ (s : State) (rest : List Turn) (slot : Word), s.issues rest (.env (.lgdt slot)) → s.activeRegions.wf = true →
    let r : TableReg :=
      ⟨s.readByte (slot + 5#32) ++ s.readByte (slot + 4#32) ++ s.readByte (slot + 3#32) ++ s.readByte (slot + 2#32),
        s.readByte (slot + 1#32) ++ s.readByte slot⟩
    r.base.toNat + r.size1.toNat ≤ 0xFFFFFFFF → s.segmentTableLoadable slot r →
    ∃ set : AddrSet,
      step s = .next
        { s with turns := rest, pc := s.pc + 1, gdtr := some r, activeRegions := set, reloadDue := true } ∧
      ∀ a, set.contains a = true ↔
        s.activeRegions.contains a = true ∨ (r.base.toNat ≤ a ∧ a ≤ r.base.toNat + r.size1.toNat)

/-- Rule R167, on a descriptor that log 13 counts as well-formed: `env.lidt` reads base and size-minus-one little-endian
from the slot, loads `IDTR` and adds `base .. base + size1` to `ActiveRegions`. That `pc` advances is log 2. The handlers and
selectors of the gates and the slots 32 to 255 may hold any bytes (rules R192 and R199). -/
def Obligations.InterruptTableLoadActivatesTheTable : Prop :=
  ∀ (s : State) (rest : List Turn) (slot : Word), s.issues rest (.env (.lidt slot)) → s.activeRegions.wf = true →
    let r : TableReg :=
      ⟨s.readByte (slot + 5#32) ++ s.readByte (slot + 4#32) ++ s.readByte (slot + 3#32) ++ s.readByte (slot + 2#32),
        s.readByte (slot + 1#32) ++ s.readByte slot⟩
    r.base.toNat + r.size1.toNat ≤ 0xFFFFFFFF → s.interruptTableLoadable slot r →
    ∃ set : AddrSet,
      step s = .next { s with turns := rest, pc := s.pc + 1, idtr := some r, activeRegions := set } ∧
      ∀ a, set.contains a = true ↔
        s.activeRegions.contains a = true ∨ (r.base.toNat ≤ a ∧ a ≤ r.base.toNat + r.size1.toNat)

/-- Rule R167, U7 and U8, with log 13's reading of what is malformed: a load refuses every table that passes
`0xFFFFFFFF`, and every other descriptor that misses one of the conditions of `segmentTableLoadable` or
`interruptTableLoadable`: the place of the record and of the table, the size, the two descriptors or the 32 gates. -/
def Obligations.MalformedTablesAreRefused : Prop :=
  ∀ (s : State) (rest : List Turn) (slot : Word),
    let r : TableReg :=
      ⟨s.readByte (slot + 5#32) ++ s.readByte (slot + 4#32) ++ s.readByte (slot + 3#32) ++ s.readByte (slot + 2#32),
        s.readByte (slot + 1#32) ++ s.readByte slot⟩
    (s.issues rest (.env (.lgdt slot)) →
      (0xFFFFFFFF < r.base.toNat + r.size1.toNat → step s = .refused (.tablePassesAddressSpace slot)) ∧
      (r.base.toNat + r.size1.toNat ≤ 0xFFFFFFFF → ¬ s.segmentTableLoadable slot r →
        step s = .refused (.malformedTableDescriptor slot))) ∧
    (s.issues rest (.env (.lidt slot)) →
      (0xFFFFFFFF < r.base.toNat + r.size1.toNat → step s = .refused (.tablePassesAddressSpace slot)) ∧
      (r.base.toNat + r.size1.toNat ≤ 0xFFFFFFFF → ¬ s.interruptTableLoadable slot r →
        step s = .refused (.malformedTableDescriptor slot)))

/-- Rules R167 and R185, by the model's choices of logs 2 and 14: in every state where a step is enabled and the program
moves, `env.reload` sets the two selectors, whether it is due or not, and while it is due any other item is refused (U9); it
becomes due by a segment-table load, and of the steps from a state where it is due the CPU's turns alone leave it due. -/
def Obligations.OnlyReloadFollowsTheSegmentTableLoad : Prop :=
  (∀ (s : State) (rest : List Turn) (cs ds : Half), s.enabled → s.programMoves rest →
    s.program[s.pc]? = some (.env (.reload cs ds)) →
    step s = .next { s with turns := rest, pc := s.pc + 1, codeSel := cs, dataSel := ds, reloadDue := false }) ∧
  (∀ (s : State) (rest : List Turn) (it : ProgItem), s.enabled → s.programMoves rest →
    s.program[s.pc]? = some it → s.reloadDue = true → (∀ cs ds, it ≠ .env (.reload cs ds)) →
    step s = .refused .stepBeforeReload) ∧
  (∀ s t : State, step s = .next t →
    (t.reloadDue = true ↔
      ((∃ rest, s.programMoves rest) ∧ ∃ slot, s.program[s.pc]? = some (.env (.lgdt slot))) ∨
        (s.reloadDue = true ∧ ∃ addr rest, s.turns = .setAccessed addr :: rest)))

/-- Rule R30: the CPU's turn on byte 5 of a slot inside `ActiveRegions` sets bit 0 of that byte, clears no bit, and
changes no other byte and nothing else; log 11: on any other address the turn is refused. -/
def Obligations.AccessedBitWriteSetsOneBit : Prop :=
  ∀ (s : State) (addr : Word) (rest : List Turn), s.enabled → s.turns = .setAccessed addr :: rest →
    (∀ slot : Nat, addr.toNat = slot + 5 → slot % 8 = 0 →
      (∀ k, k < 8 → s.activeRegions.contains (slot + k) = true) → s.mem.wf = true →
      ∃ m : Memory, step s = .next { s with turns := rest, mem := m } ∧
        m.read addr.toNat = s.mem.read addr.toNat ||| 0x01#8 ∧
        ∀ a, a ≠ addr.toNat → m.read a = s.mem.read a) ∧
    ((addr.toNat % 8 ≠ 5 ∨ ∃ k, k < 8 ∧ s.activeRegions.contains (addr.toNat - 5 + k) = false) →
      step s = .refused (.accessedOutsideActiveTable addr))

/-! ### Invariants over every step -/

/-- Rules R25, R164 and R30: from a state that meets the invariant no step takes a byte out of `ActiveRegions`, and a byte
of an active table changes only by the CPU's turn on it, only in byte 5 of a slot, and only by setting bit 0. -/
def Obligations.ActiveTablesAreReadOnlyButForTheAccessedBit : Prop :=
  ∀ s t : State, s.Inv → step s = .next t → ∀ a, s.activeRegions.contains a = true →
    t.activeRegions.contains a = true ∧
    (t.mem.read a = s.mem.read a ∨
      (a % 8 = 5 ∧ (∃ addr rest, s.turns = .setAccessed addr :: rest ∧ addr.toNat = a) ∧
        t.mem.read a = s.mem.read a ||| 0x01#8))

/-- Rules R30, R44, R45 and R163: a step that changes a byte is either a command with interrupts off, on a byte of
`StorageRegion` that is in no active table, or the CPU's turn on byte 5 of an active slot. -/
def Obligations.OnlyAdmittedBytesChange : Prop :=
  ∀ s t : State, step s = .next t → ∀ a, t.mem.read a ≠ s.mem.read a →
    (s.storageRegion.contains a = true ∧ s.activeRegions.contains a = false ∧ s.IF = 0#1 ∧ t.pc = s.pc + 1 ∧
      ∃ W i, s.program[s.pc]? = some (.word W) ∧ decode W = .ok i ∧ inFootprint i.dst (footprintOf i) a) ∨
    (s.activeRegions.contains a = true ∧ a % 8 = 5 ∧ t.pc = s.pc ∧
      t.mem.read a = s.mem.read a ||| 0x01#8)

/-- The invariant of Safety.lean is kept by every step from every state that meets it: canonical storage and address sets
(the model's forms, logs 3 and 17), every loaded table active (rules R25 and R167), interrupts off after halt-permanently
(rule R166), `pc` within the program (rule R22, and log 2 for the environment's steps). By the model's choices, and not by a
rule: a due reload only after a segment-table load, which is about the model's own field (log 14), and `pc` short of the
program's end while halted, which rests on a halt leaving `pc` (log 12). -/
def Obligations.StepKeepsTheInvariant : Prop :=
  ∀ s t : State, s.Inv → step s = .next t → t.Inv

/-- The launch state meets the invariant, with the launch values of logs 1, 3, 4, 5, 7, 12 and 14. -/
def Obligations.LaunchStateMeetsTheInvariant : Prop := State.reset.Inv

/-- Rules R32 and R180: at launch `pc = 0`, `fault = none`, `IF = 0`, and the table-base registers are unloaded. -/
def Obligations.LaunchStateIsAsTheSpecSays : Prop :=
  State.reset.pc = 0 ∧ State.reset.fault = none ∧ State.reset.IF = 0#1 ∧ State.reset.gdtr = none ∧
    State.reset.idtr = none

/-! ### The assembler -/

/-- Rules R68 and R76: every line that assembles to a word assembles to one that decodes to a command. -/
def Obligations.AssembledWordsDecode : Prop :=
  ∀ (symbols : Symbols) (listing : Text) (items : List ProgItem) (W : Command),
    assemble symbols listing = .ok items → .word W ∈ items → ∃ i, decode W = .ok i

/-- Rule R76: a `segenc` line that assembles has for every key the value written, `a` defaulting to 0; so a value that
does not fit its port is an error, not a truncation. -/
def Obligations.AssembledSegmentOperandsAreTheValuesWritten : Prop :=
  ∀ (ops : List Text) (kvs : List (Text × Nat)) (src : SegSource),
    keyOperands segKeys ops = .ok kvs → segOperands ops = .ok src →
    kvs.lookup ['b', 'a', 's', 'e'] = some src.base.toNat ∧
    kvs.lookup ['l', 'i', 'm', 'i', 't'] = some src.limit.toNat ∧
    kvs.lookup ['p'] = some src.p.toNat ∧ kvs.lookup ['d', 'p', 'l'] = some src.dpl.toNat ∧
    kvs.lookup ['x'] = some src.x.toNat ∧ kvs.lookup ['d', 'c'] = some src.dc.toNat ∧
    kvs.lookup ['r', 'w'] = some src.rw.toNat ∧ (kvs.lookup ['a']).getD 0 = src.a.toNat ∧
    kvs.lookup ['g'] = some src.g.toNat ∧ kvs.lookup ['d', 'b'] = some src.db.toNat
end

