-- ==== Sys2Proof/Laws/AddrSet.lean ====
section
/-! SUPPORT. What the address-set operations do: membership after a union, the canonical form kept, the footprint
tests as quantified statements, and equal sets are equal data. -/

namespace Sys2Proof.Machine

open Sys2Proof

theorem Span.contains_iff (sp : Span) (a : Nat) : sp.contains a = true ↔ sp.lo ≤ a ∧ a ≤ sp.hi := by
  simp [Span.contains]

@[simp] theorem AddrSet.contains_nil (a : Nat) : AddrSet.contains [] a = false := rfl

theorem AddrSet.contains_of_cons (sp : Span) (rest : AddrSet) (a : Nat) :
    AddrSet.contains (sp :: rest) a = true ↔ (sp.lo ≤ a ∧ a ≤ sp.hi) ∨ AddrSet.contains rest a = true := by
  simp [AddrSet.contains, Span.contains_iff]

@[simp] theorem AddrSet.wfFrom_nil (lo : Nat) : AddrSet.wfFrom lo [] = true := rfl

theorem AddrSet.wfFrom_of_cons (lo : Nat) (sp : Span) (rest : AddrSet) :
    AddrSet.wfFrom lo (sp :: rest) = true ↔
      lo ≤ sp.lo ∧ sp.lo ≤ sp.hi ∧ sp.hi < addressCount ∧ AddrSet.wfFrom (sp.hi + 2) rest = true := by
  simp [AddrSet.wfFrom, and_assoc]

theorem AddrSet.wfFrom_mono {lo lo' : Nat} (h : lo' ≤ lo) {set : AddrSet} (hs : AddrSet.wfFrom lo set = true) :
    AddrSet.wfFrom lo' set = true := by
  cases set with
  | nil => rfl
  | cons sp rest =>
    rw [AddrSet.wfFrom_of_cons] at hs ⊢
    exact ⟨by omega, hs.2⟩

/-- Membership after a union. -/
theorem AddrSet.contains_insert {b : Nat} {set : AddrSet} (hs : AddrSet.wfFrom b set = true) {lo hi : Nat}
    (h : lo ≤ hi) (a : Nat) :
    (AddrSet.insert set lo hi).contains a = true ↔ set.contains a = true ∨ (lo ≤ a ∧ a ≤ hi) := by
  induction set generalizing b lo hi with
  | nil => simp [AddrSet.insert, AddrSet.contains_of_cons]
  | cons sp rest ih =>
    have hc := (AddrSet.wfFrom_of_cons ..).mp hs
    rw [AddrSet.insert]
    split
    · rw [AddrSet.contains_of_cons, AddrSet.contains_of_cons, ih hc.2.2.2 h]
      tauto
    · split
      · rw [AddrSet.contains_of_cons]
        tauto
      · rw [ih hc.2.2.2 (by omega), AddrSet.contains_of_cons]
        have hm : (min lo sp.lo ≤ a ∧ a ≤ max hi sp.hi) ↔ (sp.lo ≤ a ∧ a ≤ sp.hi) ∨ (lo ≤ a ∧ a ≤ hi) := by
          omega
        rw [hm]
        tauto

/-- A union keeps the canonical form. -/
theorem AddrSet.wfFrom_insert {b : Nat} {set : AddrSet} (hs : AddrSet.wfFrom b set = true) {lo hi : Nat}
    (hb : b ≤ lo) (h : lo ≤ hi) (hhi : hi < addressCount) : AddrSet.wfFrom b (AddrSet.insert set lo hi) = true := by
  induction set generalizing b lo hi with
  | nil => exact (AddrSet.wfFrom_of_cons ..).mpr ⟨hb, h, hhi, rfl⟩
  | cons sp rest ih =>
    have hc := (AddrSet.wfFrom_of_cons ..).mp hs
    rw [AddrSet.insert]
    split
    · exact (AddrSet.wfFrom_of_cons ..).mpr ⟨hc.1, hc.2.1, hc.2.2.1, ih hc.2.2.2 (by omega) h hhi⟩
    · split
      · exact (AddrSet.wfFrom_of_cons ..).mpr
          ⟨hb, h, hhi, (AddrSet.wfFrom_of_cons ..).mpr ⟨show hi + 2 ≤ sp.lo by omega, hc.2⟩⟩
      · exact ih (AddrSet.wfFrom_mono (by omega) hc.2.2.2) (by omega) (by omega) (by omega)

theorem AddrSet.wf_insert {set : AddrSet} (hs : set.wf = true) {lo hi : Nat} (h : lo ≤ hi) (hhi : hi < addressCount) :
    (AddrSet.insert set lo hi).wf = true :=
  AddrSet.wfFrom_insert hs (Nat.zero_le lo) h hhi

/-- The test of rule R162 for `StorageRegion`, as a statement about every footprint byte. -/
theorem AddrSet.covers_iff (set : AddrSet) (dst : Word) (n : Nat) :
    set.covers dst n = true ↔ ∀ k, k < n → set.contains (dst + BitVec.ofNat 32 k).toNat = true := by
  simp [AddrSet.covers, List.all_eq_true]

/-- The test of rule R162 for `ActiveRegions`, as a statement about some footprint byte. -/
theorem AddrSet.meets_iff (set : AddrSet) (dst : Word) (n : Nat) :
    set.meets dst n = true ↔ ∃ k, k < n ∧ set.contains (dst + BitVec.ofNat 32 k).toNat = true := by
  simp [AddrSet.meets, List.any_eq_true]

theorem AddrSet.not_contains_below {b a : Nat} {set : AddrSet} (hs : AddrSet.wfFrom b set = true) (h : a < b) :
    set.contains a = false := by
  induction set generalizing b with
  | nil => rfl
  | cons sp rest ih =>
    have hc := (AddrSet.wfFrom_of_cons ..).mp hs
    have hr := ih hc.2.2.2 (by omega)
    rw [Bool.eq_false_iff, ne_eq, AddrSet.contains_of_cons, hr]
    simp
    omega

/-- Two canonical sets with the same members are the same data. -/
theorem AddrSet.ext_from {b : Nat} {set set' : AddrSet} (hs : AddrSet.wfFrom b set = true)
    (hs' : AddrSet.wfFrom b set' = true) (h : ∀ a, set.contains a = set'.contains a) : set = set' := by
  induction set generalizing b set' with
  | nil =>
    cases set' with
    | nil => rfl
    | cons sp' rest' =>
      have hc' := (AddrSet.wfFrom_of_cons ..).mp hs'
      have := (AddrSet.contains_of_cons sp' rest' sp'.lo).mpr (.inl ⟨le_refl _, hc'.2.1⟩)
      rw [← h sp'.lo] at this
      exact absurd this (by simp)
  | cons sp rest ih =>
    have hc := (AddrSet.wfFrom_of_cons ..).mp hs
    cases set' with
    | nil =>
      have := (AddrSet.contains_of_cons sp rest sp.lo).mpr (.inl ⟨le_refl _, hc.2.1⟩)
      rw [h sp.lo] at this
      exact absurd this (by simp)
    | cons sp' rest' =>
      have hc' := (AddrSet.wfFrom_of_cons ..).mp hs'
      have out : ∀ {a}, a < sp.hi + 2 → AddrSet.contains rest a = false := fun ha => AddrSet.not_contains_below hc.2.2.2 ha
      have out' : ∀ {a}, a < sp'.hi + 2 → AddrSet.contains rest' a = false :=
        fun ha => AddrSet.not_contains_below hc'.2.2.2 ha
      have key : ∀ a, ((sp.lo ≤ a ∧ a ≤ sp.hi) ∨ AddrSet.contains rest a = true) ↔
          ((sp'.lo ≤ a ∧ a ≤ sp'.hi) ∨ AddrSet.contains rest' a = true) := fun a => by
        rw [← AddrSet.contains_of_cons, ← AddrSet.contains_of_cons, h a]
      have hlo : sp.lo = sp'.lo := by
        rcases Nat.lt_trichotomy sp.lo sp'.lo with hlt | heq | hgt
        · rcases (key sp.lo).mp (.inl ⟨le_refl _, hc.2.1⟩) with h1 | h1
          · omega
          · rw [out' (by omega)] at h1
            exact absurd h1 (by simp)
        · exact heq
        · rcases (key sp'.lo).mpr (.inl ⟨le_refl _, hc'.2.1⟩) with h1 | h1
          · omega
          · rw [out (by omega)] at h1
            exact absurd h1 (by simp)
      have hhi : sp.hi = sp'.hi := by
        rcases Nat.lt_trichotomy sp.hi sp'.hi with hlt | heq | hgt
        · rcases (key (sp.hi + 1)).mpr (.inl ⟨by omega, by omega⟩) with h1 | h1
          · omega
          · rw [out (by omega)] at h1
            exact absurd h1 (by simp)
        · exact heq
        · rcases (key (sp'.hi + 1)).mp (.inl ⟨by omega, by omega⟩) with h1 | h1
          · omega
          · rw [out' (by omega)] at h1
            exact absurd h1 (by simp)
      have hsp : sp = sp' := by
        cases sp
        cases sp'
        simp_all
      subst hsp
      have hrest : rest = rest' := by
        refine ih hc.2.2.2 hc'.2.2.2 fun a => ?_
        by_cases ha : a < sp.hi + 2
        · rw [out ha, out' ha]
        · have hk := key a
          rw [Bool.eq_iff_iff]
          constructor
          · intro h1
            rcases hk.mp (.inr h1) with h2 | h2
            · omega
            · exact h2
          · intro h1
            rcases hk.mpr (.inr h1) with h2 | h2
            · omega
            · exact h2
      rw [hrest]

theorem AddrSet.ext_of_wf {set set' : AddrSet} (hs : set.wf = true) (hs' : set'.wf = true)
    (h : ∀ a, set.contains a = set'.contains a) : set = set' :=
  AddrSet.ext_from hs hs' h

end Sys2Proof.Machine
end

