-- ==== Sys2Proof/Laws/Encoding.lean ====
section
/-! SUPPORT. The fields of a command word: a word is the concatenation of its fields (spec rule R63), and a row of the
opcode table covers a word exactly when the fields that rules R65 to R67 fix have their fixed values. -/

namespace Sys2Proof.Machine

open Sys2Proof

/-- A field of a field is a field. -/
theorem extract_extract {n : Nat} (W : BitVec n) (a b m l : Nat) (h : b + l ≤ m) :
    (W.extractLsb' a m).extractLsb' b l = W.extractLsb' (a + b) l := by
  ext i hi
  have : b + i < m := by omega
  simp [this, Nat.add_assoc]

/-- The layout of rule R63 with any value in `RSV0`. -/
def rawWord (dst opa opb : Word) (f1 f0 : Byte) (rsv : BitVec 14) (op : BitVec 2) : Command :=
  dst ++ opa ++ opb ++ f1 ++ f0 ++ rsv ++ op

theorem packCommand_eq_rawWord (dst opa opb : Word) (f1 f0 : Byte) (op : BitVec 2) :
    packCommand dst opa opb f1 f0 op = rawWord dst opa opb f1 f0 0#14 op := rfl

section Fields

variable (dst opa opb : Word) (f1 f0 : Byte) (rsv : BitVec 14) (op : BitVec 2)

theorem rawWord_op : (rawWord dst opa opb f1 f0 rsv op).extractLsb' 0 2 = op :=
  BitVec.extractLsb'_append_eq_right

theorem rawWord_rsv : (rawWord dst opa opb f1 f0 rsv op).extractLsb' 2 14 = rsv :=
  (BitVec.extractLsb'_append_eq_of_le (by decide)).trans BitVec.extractLsb'_append_eq_right

theorem rawWord_f0 : (rawWord dst opa opb f1 f0 rsv op).extractLsb' 16 8 = f0 :=
  (BitVec.extractLsb'_append_eq_of_le (by decide)).trans <|
    (BitVec.extractLsb'_append_eq_of_le (by decide)).trans BitVec.extractLsb'_append_eq_right

theorem rawWord_f1 : (rawWord dst opa opb f1 f0 rsv op).extractLsb' 24 8 = f1 :=
  (BitVec.extractLsb'_append_eq_of_le (by decide)).trans <|
    (BitVec.extractLsb'_append_eq_of_le (by decide)).trans <|
      (BitVec.extractLsb'_append_eq_of_le (by decide)).trans BitVec.extractLsb'_append_eq_right

theorem rawWord_opb : (rawWord dst opa opb f1 f0 rsv op).extractLsb' 32 32 = opb :=
  (BitVec.extractLsb'_append_eq_of_le (by decide)).trans <|
    (BitVec.extractLsb'_append_eq_of_le (by decide)).trans <|
      (BitVec.extractLsb'_append_eq_of_le (by decide)).trans <|
        (BitVec.extractLsb'_append_eq_of_le (by decide)).trans BitVec.extractLsb'_append_eq_right

theorem rawWord_opa : (rawWord dst opa opb f1 f0 rsv op).extractLsb' 64 32 = opa :=
  (BitVec.extractLsb'_append_eq_of_le (by decide)).trans <|
    (BitVec.extractLsb'_append_eq_of_le (by decide)).trans <|
      (BitVec.extractLsb'_append_eq_of_le (by decide)).trans <|
        (BitVec.extractLsb'_append_eq_of_le (by decide)).trans <|
          (BitVec.extractLsb'_append_eq_of_le (by decide)).trans BitVec.extractLsb'_append_eq_right

theorem rawWord_dst : (rawWord dst opa opb f1 f0 rsv op).extractLsb' 96 32 = dst :=
  (BitVec.extractLsb'_append_eq_of_le (by decide)).trans <|
    (BitVec.extractLsb'_append_eq_of_le (by decide)).trans <|
      (BitVec.extractLsb'_append_eq_of_le (by decide)).trans <|
        (BitVec.extractLsb'_append_eq_of_le (by decide)).trans <|
          (BitVec.extractLsb'_append_eq_of_le (by decide)).trans BitVec.extractLsb'_append_eq_left

end Fields

/-- A word is the concatenation of its fields (rule R63). -/
theorem word_eq_rawWord (W : Command) :
    W = rawWord (W.extractLsb' 96 32) (W.extractLsb' 64 32) (W.extractLsb' 32 32) (W.extractLsb' 24 8)
      (W.extractLsb' 16 8) (W.extractLsb' 2 14) (W.extractLsb' 0 2) := by
  apply BitVec.eq_of_getLsbD_eq
  intro i hi
  generalize hR : rawWord (W.extractLsb' 96 32) (W.extractLsb' 64 32) (W.extractLsb' 32 32) (W.extractLsb' 24 8)
      (W.extractLsb' 16 8) (W.extractLsb' 2 14) (W.extractLsb' 0 2) = R
  have key : ∀ a n, W.extractLsb' a n = R.extractLsb' a n → a ≤ i → i < a + n → W.getLsbD i = R.getLsbD i := by
    intro a n h ha hn
    have := congrArg (fun v => v.getLsbD (i - a)) h
    have e : a + (i - a) = i := by omega
    have l : i - a < n := by omega
    simpa [BitVec.getLsbD_extractLsb', l, e] using this
  rcases Nat.lt_or_ge i 2 with h | h
  · exact key 0 2 (by rw [← hR, rawWord_op]) (by omega) (by omega)
  rcases Nat.lt_or_ge i 16 with h | h
  · exact key 2 14 (by rw [← hR, rawWord_rsv]) (by omega) (by omega)
  rcases Nat.lt_or_ge i 24 with h | h
  · exact key 16 8 (by rw [← hR, rawWord_f0]) (by omega) (by omega)
  rcases Nat.lt_or_ge i 32 with h | h
  · exact key 24 8 (by rw [← hR, rawWord_f1]) (by omega) (by omega)
  rcases Nat.lt_or_ge i 64 with h | h
  · exact key 32 32 (by rw [← hR, rawWord_opb]) (by omega) (by omega)
  rcases Nat.lt_or_ge i 96 with h | h
  · exact key 64 32 (by rw [← hR, rawWord_opa]) (by omega) (by omega)
  · exact key 96 32 (by rw [← hR, rawWord_dst]) (by omega) (by omega)

/-- Two words with the same fields are the same word. -/
theorem rawWord_inj {dst opa opb dst' opa' opb' : Word} {f1 f0 f1' f0' : Byte} {rsv rsv' : BitVec 14}
    {op op' : BitVec 2} :
    rawWord dst opa opb f1 f0 rsv op = rawWord dst' opa' opb' f1' f0' rsv' op' ↔
      dst = dst' ∧ opa = opa' ∧ opb = opb' ∧ f1 = f1' ∧ f0 = f0' ∧ rsv = rsv' ∧ op = op' := by
  constructor
  · intro h
    refine ⟨?_, ?_, ?_, ?_, ?_, ?_, ?_⟩
    · rw [← rawWord_dst dst opa opb f1 f0 rsv op, h, rawWord_dst]
    · rw [← rawWord_opa dst opa opb f1 f0 rsv op, h, rawWord_opa]
    · rw [← rawWord_opb dst opa opb f1 f0 rsv op, h, rawWord_opb]
    · rw [← rawWord_f1 dst opa opb f1 f0 rsv op, h, rawWord_f1]
    · rw [← rawWord_f0 dst opa opb f1 f0 rsv op, h, rawWord_f0]
    · rw [← rawWord_rsv dst opa opb f1 f0 rsv op, h, rawWord_rsv]
    · rw [← rawWord_op dst opa opb f1 f0 rsv op, h, rawWord_op]
  · rintro ⟨rfl, rfl, rfl, rfl, rfl, rfl, rfl⟩
    rfl

/-- A mask works field by field. -/
theorem rawWord_and (dst opa opb mdst mopa mopb : Word) (f1 f0 m1 m0 : Byte) (rsv mrsv : BitVec 14)
    (op mop : BitVec 2) :
    rawWord dst opa opb f1 f0 rsv op &&& rawWord mdst mopa mopb m1 m0 mrsv mop =
      rawWord (dst &&& mdst) (opa &&& mopa) (opb &&& mopb) (f1 &&& m1) (f0 &&& m0) (rsv &&& mrsv) (op &&& mop) := by
  unfold rawWord
  refine BitVec.and_append.trans (congrArg (· ++ (op &&& mop)) ?_)
  refine BitVec.and_append.trans (congrArg (· ++ (rsv &&& mrsv)) ?_)
  refine BitVec.and_append.trans (congrArg (· ++ (f0 &&& m0)) ?_)
  refine BitVec.and_append.trans (congrArg (· ++ (f1 &&& m1)) ?_)
  refine BitVec.and_append.trans (congrArg (· ++ (opb &&& mopb)) ?_)
  exact BitVec.and_append

theorem and_allOnes14 (v : BitVec 14) : v &&& 0x3FFF#14 = v := BitVec.and_allOnes

theorem and_allOnes2 (v : BitVec 2) : v &&& 3#2 = v := BitVec.and_allOnes

theorem and_allOnes8 (v : BitVec 8) : v &&& 0xFF#8 = v := BitVec.and_allOnes

theorem and_highHalf_eq_zero (v : Word) : v &&& 0xFFFF0000#32 = 0#32 ↔ v.extractLsb' 16 16 = 0#16 := by
  have hv : v = v.extractLsb' 16 16 ++ v.extractLsb' 0 16 := by
    apply BitVec.eq_of_getLsbD_eq
    intro i hi
    rw [BitVec.getLsbD_append]
    split
    · rename_i h
      simp [h]
    · rename_i h
      have h1 : i - 16 < 16 := by omega
      have h2 : 16 + (i - 16) = i := by omega
      simp [h1, h2]
  have hm : (0xFFFF0000#32 : Word) = 0xFFFF#16 ++ 0#16 := by decide
  constructor
  · intro h
    have h' := congrArg (fun x => BitVec.extractLsb' 16 16 x) h
    have he : (v &&& 0xFFFF0000#32).extractLsb' 16 16 = v.extractLsb' 16 16 := by
      rw [hm]
      conv_lhs => rw [hv]
      rw [show ((v.extractLsb' 16 16 ++ v.extractLsb' 0 16 : Word) &&& (0xFFFF#16 ++ 0#16 : Word)) =
        (v.extractLsb' 16 16 &&& 0xFFFF#16) ++ (v.extractLsb' 0 16 &&& 0#16) from BitVec.and_append]
      exact (BitVec.extractLsb'_append_eq_left (b := v.extractLsb' 0 16 &&& 0#16)).trans BitVec.and_allOnes
    rw [← he]
    simpa using h'
  · intro h
    rw [hm, hv, h]
    exact BitVec.and_append.trans (by simp)

theorem and_0x3F_eq_zero (v : Byte) : v &&& 0x3F#8 = 0#8 ↔ v.extractLsb' 0 6 = 0#6 := by
  revert v
  decide

theorem and_0x10_eq_zero (v : Byte) : v &&& 0x10#8 = 0#8 ↔ v.extractLsb' 4 1 = 0#1 := by
  revert v
  decide

/-- The row of SEG_ENCODE covers a word exactly when the bits that rule R65 fixes are as fixed. -/
theorem segRow_covers_iff (W : Command) :
    segRow.covers W = true ↔
      W.extractLsb' 0 2 = 0#2 ∧ W.extractLsb' 2 14 = 0#14 ∧ W.extractLsb' 20 1 = 0#1 ∧ W.extractLsb' 24 6 = 0#6 := by
  have hm : segRow.mask = rawWord 0#32 0#32 0#32 0x3F#8 0x10#8 0x3FFF#14 3#2 := by decide
  have hp : segRow.pattern = rawWord 0#32 0#32 0#32 0#8 0#8 0#14 0#2 := by decide
  have e1 : W.extractLsb' 20 1 = (W.extractLsb' 16 8).extractLsb' 4 1 :=
    (extract_extract W 16 4 8 1 (by decide)).symm
  have e2 : W.extractLsb' 24 6 = (W.extractLsb' 24 8).extractLsb' 0 6 :=
    (extract_extract W 24 0 8 6 (by decide)).symm
  unfold OpRow.covers
  rw [beq_iff_eq, hm, hp, e1, e2, ← and_0x10_eq_zero, ← and_0x3F_eq_zero]
  conv_lhs => rw [word_eq_rawWord W]
  rw [rawWord_and, rawWord_inj, and_allOnes14, and_allOnes2]
  simp only [BitVec.and_zero, true_and]
  tauto

/-- The row of GATE_ENCODE covers a word exactly when the bits that rule R66 fixes are as fixed. -/
theorem gateRow_covers_iff (W : Command) :
    gateRow.covers W = true ↔
      W.extractLsb' 0 2 = 1#2 ∧ W.extractLsb' 2 14 = 0#14 ∧ W.extractLsb' 24 8 = 0#8 ∧
        W.extractLsb' 48 16 = 0#16 := by
  have hm : gateRow.mask = rawWord 0#32 0#32 0xFFFF0000#32 0xFF#8 0#8 0x3FFF#14 3#2 := by decide
  have hp : gateRow.pattern = rawWord 0#32 0#32 0#32 0#8 0#8 0#14 1#2 := by decide
  have e : W.extractLsb' 48 16 = (W.extractLsb' 32 32).extractLsb' 16 16 :=
    (extract_extract W 32 16 32 16 (by decide)).symm
  unfold OpRow.covers
  rw [beq_iff_eq, hm, hp, e, ← and_highHalf_eq_zero]
  conv_lhs => rw [word_eq_rawWord W]
  rw [rawWord_and, rawWord_inj, and_allOnes14, and_allOnes2, and_allOnes8]
  simp only [BitVec.and_zero, true_and]
  tauto

/-- The row of TDESC_ENCODE covers a word exactly when the bits that rule R67 fixes are as fixed. -/
theorem tdescRow_covers_iff (W : Command) :
    tdescRow.covers W = true ↔
      W.extractLsb' 0 2 = 2#2 ∧ W.extractLsb' 2 14 = 0#14 ∧ W.extractLsb' 16 16 = 0#16 ∧
        W.extractLsb' 48 16 = 0#16 := by
  have hm : tdescRow.mask = rawWord 0#32 0#32 0xFFFF0000#32 0xFF#8 0xFF#8 0x3FFF#14 3#2 := by decide
  have hp : tdescRow.pattern = rawWord 0#32 0#32 0#32 0#8 0#8 0#14 2#2 := by decide
  have e : W.extractLsb' 48 16 = (W.extractLsb' 32 32).extractLsb' 16 16 :=
    (extract_extract W 32 16 32 16 (by decide)).symm
  have e0 : W.extractLsb' 16 16 = 0#16 ↔ W.extractLsb' 24 8 = 0#8 ∧ W.extractLsb' 16 8 = 0#8 := by
    have h1 : (W.extractLsb' 16 16).extractLsb' 8 8 = W.extractLsb' 24 8 := extract_extract W 16 8 16 8 (by decide)
    have h0 : (W.extractLsb' 16 16).extractLsb' 0 8 = W.extractLsb' 16 8 := extract_extract W 16 0 16 8 (by decide)
    rw [← h1, ← h0]
    generalize W.extractLsb' 16 16 = v
    constructor
    · rintro rfl
      decide
    · rintro ⟨ha, hb⟩
      apply BitVec.eq_of_getLsbD_eq
      intro i hi
      rcases Nat.lt_or_ge i 8 with h | h
      · have := congrArg (fun x => x.getLsbD i) hb
        simpa [h] using this
      · have := congrArg (fun x => x.getLsbD (i - 8)) ha
        have l : i - 8 < 8 := by omega
        have e8 : 8 + (i - 8) = i := by omega
        simpa [l, e8] using this
  unfold OpRow.covers
  rw [beq_iff_eq, hm, hp, e, e0, ← and_highHalf_eq_zero]
  conv_lhs => rw [word_eq_rawWord W]
  rw [rawWord_and, rawWord_inj, and_allOnes14, and_allOnes2, and_allOnes8, and_allOnes8]
  simp only [BitVec.and_zero, true_and]
  tauto

end Sys2Proof.Machine
end

