-- ==== Sys2Proof/Laws/Memory.lean ====
section
/-! SUPPORT. What the storage operations do: a read after a write, the bytes a store leaves alone, the canonical form
kept, and equal contents are equal data. -/

namespace Sys2Proof.Machine

open Sys2Proof

@[simp] theorem Memory.read_nil (a : Nat) : Memory.read [] a = Memory.unlisted := rfl

theorem Memory.read_of_cons (b : Nat) (w : Byte) (rest : Memory) (a : Nat) :
    Memory.read ((b, w) :: rest) a = if b = a then w else Memory.read rest a := rfl

theorem Memory.read_cons_ne {a c : Nat} (v : Byte) (rest : Memory) (h : c ≠ a) :
    (Memory.cons a v rest).read c = Memory.read rest c := by
  unfold Memory.cons
  split
  · rfl
  · rw [Memory.read_of_cons, if_neg (Ne.symm h)]

/-- A write leaves every other address alone, in any list. -/
theorem Memory.read_write_ne (m : Memory) {a c : Nat} (v : Byte) (h : c ≠ a) :
    (Memory.write m a v).read c = Memory.read m c := by
  induction m with
  | nil => exact Memory.read_cons_ne v [] h
  | cons cell rest ih =>
    obtain ⟨b, w⟩ := cell
    rw [Memory.write, Memory.read_of_cons]
    split
    · rw [Memory.read_of_cons, ih]
    · split
      · rename_i hb
        rw [Memory.read_cons_ne v rest h, if_neg (by omega)]
      · rw [Memory.read_cons_ne v _ h, Memory.read_of_cons]

@[simp] theorem Memory.wfFrom_nil (lo : Nat) : Memory.wfFrom lo [] = true := rfl

theorem Memory.wfFrom_of_cons (lo a : Nat) (v : Byte) (rest : Memory) :
    Memory.wfFrom lo ((a, v) :: rest) = true ↔
      lo ≤ a ∧ a < addressCount ∧ v ≠ Memory.unlisted ∧ Memory.wfFrom (a + 1) rest = true := by
  simp [Memory.wfFrom, and_assoc]

theorem Memory.wfFrom_mono {lo lo' : Nat} (h : lo' ≤ lo) {m : Memory} (hm : Memory.wfFrom lo m = true) :
    Memory.wfFrom lo' m = true := by
  cases m with
  | nil => rfl
  | cons cell rest =>
    obtain ⟨a, v⟩ := cell
    rw [Memory.wfFrom_of_cons] at hm ⊢
    exact ⟨by omega, hm.2⟩

theorem Memory.read_below {lo c : Nat} {m : Memory} (hm : Memory.wfFrom lo m = true) (h : c < lo) :
    m.read c = Memory.unlisted := by
  induction m generalizing lo with
  | nil => rfl
  | cons cell rest ih =>
    obtain ⟨a, v⟩ := cell
    rw [Memory.wfFrom_of_cons] at hm
    rw [Memory.read_of_cons, if_neg (by omega)]
    exact ih hm.2.2.2 (by omega)

theorem Memory.read_cons_self {lo a : Nat} (v : Byte) {rest : Memory} (h : Memory.wfFrom lo rest = true)
    (ha : a < lo) : (Memory.cons a v rest).read a = v := by
  unfold Memory.cons
  split
  · rename_i hv
    rw [Memory.read_below h ha, hv]
  · rw [Memory.read_of_cons, if_pos rfl]

theorem Memory.wfFrom_cons {lo a : Nat} (v : Byte) {rest : Memory} (hlo : lo ≤ a) (ha : a < addressCount)
    (h : Memory.wfFrom (a + 1) rest = true) : Memory.wfFrom lo (Memory.cons a v rest) = true := by
  unfold Memory.cons
  split
  · exact Memory.wfFrom_mono (by omega) h
  · rename_i hv
    exact (Memory.wfFrom_of_cons ..).mpr ⟨hlo, ha, hv, h⟩

/-- A read after a write to the same address gives the value written. -/
theorem Memory.read_write_self {lo : Nat} {m : Memory} (hm : Memory.wfFrom lo m = true) (a : Nat) (v : Byte) :
    (m.write a v).read a = v := by
  induction m generalizing lo with
  | nil => exact Memory.read_cons_self v (Memory.wfFrom_nil (a + 1)) (Nat.lt_succ_self a)
  | cons cell rest ih =>
    obtain ⟨b, w⟩ := cell
    have hc := (Memory.wfFrom_of_cons ..).mp hm
    rw [Memory.write]
    split
    · rename_i hb
      rw [Memory.read_of_cons, if_neg (by omega)]
      exact ih hc.2.2.2
    · split
      · rename_i hb
        exact Memory.read_cons_self v hc.2.2.2 (by omega)
      · exact Memory.read_cons_self (lo := b) v ((Memory.wfFrom_of_cons ..).mpr ⟨le_refl b, hc.2⟩) (by omega)

/-- In any list, a read after a write of a value that is not the unlisted one gives that value. -/
theorem Memory.read_write_listed (m : Memory) (a : Nat) {v : Byte} (hv : v ≠ Memory.unlisted) :
    (m.write a v).read a = v := by
  have hc : ∀ rest : Memory, (Memory.cons a v rest).read a = v := fun rest => by
    unfold Memory.cons
    rw [if_neg hv, Memory.read_of_cons, if_pos rfl]
  induction m with
  | nil => exact hc []
  | cons cell rest ih =>
    obtain ⟨b, w⟩ := cell
    rw [Memory.write]
    split
    · rename_i hb
      rw [Memory.read_of_cons, if_neg (by omega)]
      exact ih
    · split <;> exact hc _

/-- A write keeps the canonical form. -/
theorem Memory.wfFrom_write {lo : Nat} {m : Memory} (hm : Memory.wfFrom lo m = true) {a : Nat} (hlo : lo ≤ a)
    (ha : a < addressCount) (v : Byte) : Memory.wfFrom lo (m.write a v) = true := by
  induction m generalizing lo with
  | nil => exact Memory.wfFrom_cons v hlo ha rfl
  | cons cell rest ih =>
    obtain ⟨b, w⟩ := cell
    have hc := (Memory.wfFrom_of_cons ..).mp hm
    rw [Memory.write]
    split
    · exact (Memory.wfFrom_of_cons ..).mpr ⟨hc.1, hc.2.1, hc.2.2.1, ih hc.2.2.2 (by omega)⟩
    · split
      · rename_i hb
        exact Memory.wfFrom_cons v hlo ha (hb ▸ hc.2.2.2)
      · exact Memory.wfFrom_cons v hlo ha ((Memory.wfFrom_of_cons ..).mpr ⟨by omega, hc.2⟩)

theorem Memory.wf_write {m : Memory} (hm : m.wf = true) {a : Nat} (ha : a < addressCount) (v : Byte) :
    (m.write a v).wf = true :=
  Memory.wfFrom_write hm (Nat.zero_le a) ha v

/-- A store keeps the canonical form. -/
theorem Memory.wf_store {m : Memory} (hm : m.wf = true) (a : Word) (bs : List Byte) : (m.store a bs).wf = true := by
  induction bs generalizing m a with
  | nil => exact hm
  | cons b bs ih => exact ih (Memory.wf_write hm a.isLt b) (a + 1#32)

/-- A store leaves alone every address that is none of `a`, `a + 1`, …, in any list. -/
theorem Memory.read_store_outside (m : Memory) (a c : Word) (bs : List Byte) (h : bs.length ≤ (c - a).toNat) :
    (m.store a bs).read c.toNat = m.read c.toNat := by
  induction bs generalizing m a with
  | nil => rfl
  | cons b bs ih =>
    have hlen : bs.length + 1 ≤ (c - a).toNat := h
    rw [Memory.store, ih _ _ (by bv_omega), Memory.read_write_ne]
    bv_omega

/-- What a store leaves at an address: byte number `c - a` of the bytes stored, or what was there. -/
theorem Memory.read_store {m : Memory} (hm : m.wf = true) (a c : Word) (bs : List Byte)
    (hlen : bs.length ≤ addressCount) :
    (m.store a bs).read c.toNat = (bs[(c - a).toNat]?).getD (m.read c.toNat) := by
  induction bs generalizing m a with
  | nil => rfl
  | cons b bs ih =>
    have hlen' : bs.length + 1 ≤ 4294967296 := hlen
    rw [Memory.store]
    by_cases hc : c = a
    · subst hc
      rw [Memory.read_store_outside _ _ _ _ (by bv_omega), Memory.read_write_self hm]
      simp
    · rw [ih (Memory.wf_write hm a.isLt b) _ (Nat.le_of_succ_le hlen), Memory.read_write_ne _ _ (by bv_omega)]
      have hk : (c - a).toNat = (c - (a + 1#32)).toNat + 1 := by bv_omega
      rw [hk, List.getElem?_cons_succ]

/-- Every address from `lo` on and of the address space with the same bytes: the same list. -/
theorem Memory.ext_from {lo : Nat} {m m' : Memory} (hm : Memory.wfFrom lo m = true) (hm' : Memory.wfFrom lo m' = true)
    (h : ∀ a, m.read a = m'.read a) : m = m' := by
  induction m generalizing lo m' with
  | nil =>
    cases m' with
    | nil => rfl
    | cons cell' rest' =>
      obtain ⟨a, v⟩ := cell'
      have hc := (Memory.wfFrom_of_cons ..).mp hm'
      exact absurd (by simpa [Memory.read_of_cons] using (h a).symm) hc.2.2.1
  | cons cell rest ih =>
    obtain ⟨b, w⟩ := cell
    have hc := (Memory.wfFrom_of_cons ..).mp hm
    cases m' with
    | nil => exact absurd (by simpa [Memory.read_of_cons] using h b) hc.2.2.1
    | cons cell' rest' =>
      obtain ⟨b', w'⟩ := cell'
      have hc' := (Memory.wfFrom_of_cons ..).mp hm'
      have hbb : b = b' := by
        rcases Nat.lt_trichotomy b b' with hlt | heq | hgt
        · have := h b
          rw [Memory.read_below ((Memory.wfFrom_of_cons ..).mpr ⟨le_refl b', hc'.2⟩) hlt,
            Memory.read_of_cons, if_pos rfl] at this
          exact absurd this hc.2.2.1
        · exact heq
        · have := h b'
          rw [Memory.read_below ((Memory.wfFrom_of_cons ..).mpr ⟨le_refl b, hc.2⟩) hgt,
            Memory.read_of_cons, if_pos rfl] at this
          exact absurd this.symm hc'.2.2.1
      subst hbb
      have hww : w = w' := by simpa [Memory.read_of_cons] using h b
      subst hww
      have hrest : rest = rest' := by
        refine ih hc.2.2.2 hc'.2.2.2 fun a => ?_
        by_cases hab : b = a
        · subst hab
          rw [Memory.read_below hc.2.2.2 (Nat.lt_succ_self b), Memory.read_below hc'.2.2.2 (Nat.lt_succ_self b)]
        · simpa [Memory.read_of_cons, hab] using h a
      rw [hrest]

/-- Two canonical storages with the same bytes are the same data. -/
theorem Memory.ext_of_wf {m m' : Memory} (hm : m.wf = true) (hm' : m'.wf = true) (h : ∀ a, m.read a = m'.read a) :
    m = m' :=
  Memory.ext_from hm hm' h

/-- The storage of a state with nothing listed is canonical. -/
theorem Memory.wf_nil : Memory.wf [] = true := rfl

end Sys2Proof.Machine
end

