-- ==== Sys2Proof/Laws/State.lean ====
section
/-! SUPPORT. One lemma per field per named update of the state, so that no later proof unfolds a record update. -/

namespace Sys2Proof.Machine

open Sys2Proof

@[simp] theorem State.advance_pc (s : State) : (s.advance).pc = s.pc + 1 := rfl
@[simp] theorem State.advance_mem (s : State) : (s.advance).mem = s.mem := rfl
@[simp] theorem State.advance_fault (s : State) : (s.advance).fault = s.fault := rfl
@[simp] theorem State.advance_flags (s : State) : (s.advance).flags = s.flags := rfl
@[simp] theorem State.advance_activeRegions (s : State) : (s.advance).activeRegions = s.activeRegions := rfl
@[simp] theorem State.advance_storageRegion (s : State) : (s.advance).storageRegion = s.storageRegion := rfl
@[simp] theorem State.advance_gdtr (s : State) : (s.advance).gdtr = s.gdtr := rfl
@[simp] theorem State.advance_idtr (s : State) : (s.advance).idtr = s.idtr := rfl
@[simp] theorem State.advance_codeSel (s : State) : (s.advance).codeSel = s.codeSel := rfl
@[simp] theorem State.advance_dataSel (s : State) : (s.advance).dataSel = s.dataSel := rfl
@[simp] theorem State.advance_segB6Rsvd (s : State) : (s.advance).segB6Rsvd = s.segB6Rsvd := rfl
@[simp] theorem State.advance_program (s : State) : (s.advance).program = s.program := rfl
@[simp] theorem State.advance_halt (s : State) : (s.advance).halt = s.halt := rfl
@[simp] theorem State.advance_reloadDue (s : State) : (s.advance).reloadDue = s.reloadDue := rfl
@[simp] theorem State.advance_turns (s : State) : (s.advance).turns = s.turns := rfl

@[simp] theorem State.withMem_pc (s : State) (m : Memory) : (s.withMem m).pc = s.pc := rfl
@[simp] theorem State.withMem_mem (s : State) (m : Memory) : (s.withMem m).mem = m := rfl
@[simp] theorem State.withMem_fault (s : State) (m : Memory) : (s.withMem m).fault = s.fault := rfl
@[simp] theorem State.withMem_flags (s : State) (m : Memory) : (s.withMem m).flags = s.flags := rfl
@[simp] theorem State.withMem_activeRegions (s : State) (m : Memory) : (s.withMem m).activeRegions = s.activeRegions := rfl
@[simp] theorem State.withMem_storageRegion (s : State) (m : Memory) : (s.withMem m).storageRegion = s.storageRegion := rfl
@[simp] theorem State.withMem_gdtr (s : State) (m : Memory) : (s.withMem m).gdtr = s.gdtr := rfl
@[simp] theorem State.withMem_idtr (s : State) (m : Memory) : (s.withMem m).idtr = s.idtr := rfl
@[simp] theorem State.withMem_codeSel (s : State) (m : Memory) : (s.withMem m).codeSel = s.codeSel := rfl
@[simp] theorem State.withMem_dataSel (s : State) (m : Memory) : (s.withMem m).dataSel = s.dataSel := rfl
@[simp] theorem State.withMem_segB6Rsvd (s : State) (m : Memory) : (s.withMem m).segB6Rsvd = s.segB6Rsvd := rfl
@[simp] theorem State.withMem_program (s : State) (m : Memory) : (s.withMem m).program = s.program := rfl
@[simp] theorem State.withMem_halt (s : State) (m : Memory) : (s.withMem m).halt = s.halt := rfl
@[simp] theorem State.withMem_reloadDue (s : State) (m : Memory) : (s.withMem m).reloadDue = s.reloadDue := rfl
@[simp] theorem State.withMem_turns (s : State) (m : Memory) : (s.withMem m).turns = s.turns := rfl

@[simp] theorem State.withFault_pc (s : State) (f : ModelFault) : (s.withFault f).pc = s.pc := rfl
@[simp] theorem State.withFault_mem (s : State) (f : ModelFault) : (s.withFault f).mem = s.mem := rfl
@[simp] theorem State.withFault_fault (s : State) (f : ModelFault) : (s.withFault f).fault = some f := rfl
@[simp] theorem State.withFault_flags (s : State) (f : ModelFault) : (s.withFault f).flags = s.flags := rfl
@[simp] theorem State.withFault_activeRegions (s : State) (f : ModelFault) : (s.withFault f).activeRegions = s.activeRegions := rfl
@[simp] theorem State.withFault_storageRegion (s : State) (f : ModelFault) : (s.withFault f).storageRegion = s.storageRegion := rfl
@[simp] theorem State.withFault_gdtr (s : State) (f : ModelFault) : (s.withFault f).gdtr = s.gdtr := rfl
@[simp] theorem State.withFault_idtr (s : State) (f : ModelFault) : (s.withFault f).idtr = s.idtr := rfl
@[simp] theorem State.withFault_codeSel (s : State) (f : ModelFault) : (s.withFault f).codeSel = s.codeSel := rfl
@[simp] theorem State.withFault_dataSel (s : State) (f : ModelFault) : (s.withFault f).dataSel = s.dataSel := rfl
@[simp] theorem State.withFault_segB6Rsvd (s : State) (f : ModelFault) : (s.withFault f).segB6Rsvd = s.segB6Rsvd := rfl
@[simp] theorem State.withFault_program (s : State) (f : ModelFault) : (s.withFault f).program = s.program := rfl
@[simp] theorem State.withFault_halt (s : State) (f : ModelFault) : (s.withFault f).halt = s.halt := rfl
@[simp] theorem State.withFault_reloadDue (s : State) (f : ModelFault) : (s.withFault f).reloadDue = s.reloadDue := rfl
@[simp] theorem State.withFault_turns (s : State) (f : ModelFault) : (s.withFault f).turns = s.turns := rfl

@[simp] theorem State.withFlags_pc (s : State) (v : BitVec 32) : (s.withFlags v).pc = s.pc := rfl
@[simp] theorem State.withFlags_mem (s : State) (v : BitVec 32) : (s.withFlags v).mem = s.mem := rfl
@[simp] theorem State.withFlags_fault (s : State) (v : BitVec 32) : (s.withFlags v).fault = s.fault := rfl
@[simp] theorem State.withFlags_flags (s : State) (v : BitVec 32) : (s.withFlags v).flags = v := rfl
@[simp] theorem State.withFlags_activeRegions (s : State) (v : BitVec 32) : (s.withFlags v).activeRegions = s.activeRegions := rfl
@[simp] theorem State.withFlags_storageRegion (s : State) (v : BitVec 32) : (s.withFlags v).storageRegion = s.storageRegion := rfl
@[simp] theorem State.withFlags_gdtr (s : State) (v : BitVec 32) : (s.withFlags v).gdtr = s.gdtr := rfl
@[simp] theorem State.withFlags_idtr (s : State) (v : BitVec 32) : (s.withFlags v).idtr = s.idtr := rfl
@[simp] theorem State.withFlags_codeSel (s : State) (v : BitVec 32) : (s.withFlags v).codeSel = s.codeSel := rfl
@[simp] theorem State.withFlags_dataSel (s : State) (v : BitVec 32) : (s.withFlags v).dataSel = s.dataSel := rfl
@[simp] theorem State.withFlags_segB6Rsvd (s : State) (v : BitVec 32) : (s.withFlags v).segB6Rsvd = s.segB6Rsvd := rfl
@[simp] theorem State.withFlags_program (s : State) (v : BitVec 32) : (s.withFlags v).program = s.program := rfl
@[simp] theorem State.withFlags_halt (s : State) (v : BitVec 32) : (s.withFlags v).halt = s.halt := rfl
@[simp] theorem State.withFlags_reloadDue (s : State) (v : BitVec 32) : (s.withFlags v).reloadDue = s.reloadDue := rfl
@[simp] theorem State.withFlags_turns (s : State) (v : BitVec 32) : (s.withFlags v).turns = s.turns := rfl

@[simp] theorem State.withActive_pc (s : State) (set : AddrSet) : (s.withActive set).pc = s.pc := rfl
@[simp] theorem State.withActive_mem (s : State) (set : AddrSet) : (s.withActive set).mem = s.mem := rfl
@[simp] theorem State.withActive_fault (s : State) (set : AddrSet) : (s.withActive set).fault = s.fault := rfl
@[simp] theorem State.withActive_flags (s : State) (set : AddrSet) : (s.withActive set).flags = s.flags := rfl
@[simp] theorem State.withActive_activeRegions (s : State) (set : AddrSet) : (s.withActive set).activeRegions = set := rfl
@[simp] theorem State.withActive_storageRegion (s : State) (set : AddrSet) : (s.withActive set).storageRegion = s.storageRegion := rfl
@[simp] theorem State.withActive_gdtr (s : State) (set : AddrSet) : (s.withActive set).gdtr = s.gdtr := rfl
@[simp] theorem State.withActive_idtr (s : State) (set : AddrSet) : (s.withActive set).idtr = s.idtr := rfl
@[simp] theorem State.withActive_codeSel (s : State) (set : AddrSet) : (s.withActive set).codeSel = s.codeSel := rfl
@[simp] theorem State.withActive_dataSel (s : State) (set : AddrSet) : (s.withActive set).dataSel = s.dataSel := rfl
@[simp] theorem State.withActive_segB6Rsvd (s : State) (set : AddrSet) : (s.withActive set).segB6Rsvd = s.segB6Rsvd := rfl
@[simp] theorem State.withActive_program (s : State) (set : AddrSet) : (s.withActive set).program = s.program := rfl
@[simp] theorem State.withActive_halt (s : State) (set : AddrSet) : (s.withActive set).halt = s.halt := rfl
@[simp] theorem State.withActive_reloadDue (s : State) (set : AddrSet) : (s.withActive set).reloadDue = s.reloadDue := rfl
@[simp] theorem State.withActive_turns (s : State) (set : AddrSet) : (s.withActive set).turns = s.turns := rfl

@[simp] theorem State.withGdtr_pc (s : State) (r : TableReg) : (s.withGdtr r).pc = s.pc := rfl
@[simp] theorem State.withGdtr_mem (s : State) (r : TableReg) : (s.withGdtr r).mem = s.mem := rfl
@[simp] theorem State.withGdtr_fault (s : State) (r : TableReg) : (s.withGdtr r).fault = s.fault := rfl
@[simp] theorem State.withGdtr_flags (s : State) (r : TableReg) : (s.withGdtr r).flags = s.flags := rfl
@[simp] theorem State.withGdtr_activeRegions (s : State) (r : TableReg) : (s.withGdtr r).activeRegions = s.activeRegions := rfl
@[simp] theorem State.withGdtr_storageRegion (s : State) (r : TableReg) : (s.withGdtr r).storageRegion = s.storageRegion := rfl
@[simp] theorem State.withGdtr_gdtr (s : State) (r : TableReg) : (s.withGdtr r).gdtr = some r := rfl
@[simp] theorem State.withGdtr_idtr (s : State) (r : TableReg) : (s.withGdtr r).idtr = s.idtr := rfl
@[simp] theorem State.withGdtr_codeSel (s : State) (r : TableReg) : (s.withGdtr r).codeSel = s.codeSel := rfl
@[simp] theorem State.withGdtr_dataSel (s : State) (r : TableReg) : (s.withGdtr r).dataSel = s.dataSel := rfl
@[simp] theorem State.withGdtr_segB6Rsvd (s : State) (r : TableReg) : (s.withGdtr r).segB6Rsvd = s.segB6Rsvd := rfl
@[simp] theorem State.withGdtr_program (s : State) (r : TableReg) : (s.withGdtr r).program = s.program := rfl
@[simp] theorem State.withGdtr_halt (s : State) (r : TableReg) : (s.withGdtr r).halt = s.halt := rfl
@[simp] theorem State.withGdtr_reloadDue (s : State) (r : TableReg) : (s.withGdtr r).reloadDue = s.reloadDue := rfl
@[simp] theorem State.withGdtr_turns (s : State) (r : TableReg) : (s.withGdtr r).turns = s.turns := rfl

@[simp] theorem State.withIdtr_pc (s : State) (r : TableReg) : (s.withIdtr r).pc = s.pc := rfl
@[simp] theorem State.withIdtr_mem (s : State) (r : TableReg) : (s.withIdtr r).mem = s.mem := rfl
@[simp] theorem State.withIdtr_fault (s : State) (r : TableReg) : (s.withIdtr r).fault = s.fault := rfl
@[simp] theorem State.withIdtr_flags (s : State) (r : TableReg) : (s.withIdtr r).flags = s.flags := rfl
@[simp] theorem State.withIdtr_activeRegions (s : State) (r : TableReg) : (s.withIdtr r).activeRegions = s.activeRegions := rfl
@[simp] theorem State.withIdtr_storageRegion (s : State) (r : TableReg) : (s.withIdtr r).storageRegion = s.storageRegion := rfl
@[simp] theorem State.withIdtr_gdtr (s : State) (r : TableReg) : (s.withIdtr r).gdtr = s.gdtr := rfl
@[simp] theorem State.withIdtr_idtr (s : State) (r : TableReg) : (s.withIdtr r).idtr = some r := rfl
@[simp] theorem State.withIdtr_codeSel (s : State) (r : TableReg) : (s.withIdtr r).codeSel = s.codeSel := rfl
@[simp] theorem State.withIdtr_dataSel (s : State) (r : TableReg) : (s.withIdtr r).dataSel = s.dataSel := rfl
@[simp] theorem State.withIdtr_segB6Rsvd (s : State) (r : TableReg) : (s.withIdtr r).segB6Rsvd = s.segB6Rsvd := rfl
@[simp] theorem State.withIdtr_program (s : State) (r : TableReg) : (s.withIdtr r).program = s.program := rfl
@[simp] theorem State.withIdtr_halt (s : State) (r : TableReg) : (s.withIdtr r).halt = s.halt := rfl
@[simp] theorem State.withIdtr_reloadDue (s : State) (r : TableReg) : (s.withIdtr r).reloadDue = s.reloadDue := rfl
@[simp] theorem State.withIdtr_turns (s : State) (r : TableReg) : (s.withIdtr r).turns = s.turns := rfl

@[simp] theorem State.withSelectors_pc (s : State) (cs ds : Half) : (s.withSelectors cs ds).pc = s.pc := rfl
@[simp] theorem State.withSelectors_mem (s : State) (cs ds : Half) : (s.withSelectors cs ds).mem = s.mem := rfl
@[simp] theorem State.withSelectors_fault (s : State) (cs ds : Half) : (s.withSelectors cs ds).fault = s.fault := rfl
@[simp] theorem State.withSelectors_flags (s : State) (cs ds : Half) : (s.withSelectors cs ds).flags = s.flags := rfl
@[simp] theorem State.withSelectors_activeRegions (s : State) (cs ds : Half) : (s.withSelectors cs ds).activeRegions = s.activeRegions := rfl
@[simp] theorem State.withSelectors_storageRegion (s : State) (cs ds : Half) : (s.withSelectors cs ds).storageRegion = s.storageRegion := rfl
@[simp] theorem State.withSelectors_gdtr (s : State) (cs ds : Half) : (s.withSelectors cs ds).gdtr = s.gdtr := rfl
@[simp] theorem State.withSelectors_idtr (s : State) (cs ds : Half) : (s.withSelectors cs ds).idtr = s.idtr := rfl
@[simp] theorem State.withSelectors_codeSel (s : State) (cs ds : Half) : (s.withSelectors cs ds).codeSel = cs := rfl
@[simp] theorem State.withSelectors_dataSel (s : State) (cs ds : Half) : (s.withSelectors cs ds).dataSel = ds := rfl
@[simp] theorem State.withSelectors_segB6Rsvd (s : State) (cs ds : Half) : (s.withSelectors cs ds).segB6Rsvd = s.segB6Rsvd := rfl
@[simp] theorem State.withSelectors_program (s : State) (cs ds : Half) : (s.withSelectors cs ds).program = s.program := rfl
@[simp] theorem State.withSelectors_halt (s : State) (cs ds : Half) : (s.withSelectors cs ds).halt = s.halt := rfl
@[simp] theorem State.withSelectors_reloadDue (s : State) (cs ds : Half) : (s.withSelectors cs ds).reloadDue = s.reloadDue := rfl
@[simp] theorem State.withSelectors_turns (s : State) (cs ds : Half) : (s.withSelectors cs ds).turns = s.turns := rfl

@[simp] theorem State.withHalt_pc (s : State) (h : HaltState) : (s.withHalt h).pc = s.pc := rfl
@[simp] theorem State.withHalt_mem (s : State) (h : HaltState) : (s.withHalt h).mem = s.mem := rfl
@[simp] theorem State.withHalt_fault (s : State) (h : HaltState) : (s.withHalt h).fault = s.fault := rfl
@[simp] theorem State.withHalt_flags (s : State) (h : HaltState) : (s.withHalt h).flags = s.flags := rfl
@[simp] theorem State.withHalt_activeRegions (s : State) (h : HaltState) : (s.withHalt h).activeRegions = s.activeRegions := rfl
@[simp] theorem State.withHalt_storageRegion (s : State) (h : HaltState) : (s.withHalt h).storageRegion = s.storageRegion := rfl
@[simp] theorem State.withHalt_gdtr (s : State) (h : HaltState) : (s.withHalt h).gdtr = s.gdtr := rfl
@[simp] theorem State.withHalt_idtr (s : State) (h : HaltState) : (s.withHalt h).idtr = s.idtr := rfl
@[simp] theorem State.withHalt_codeSel (s : State) (h : HaltState) : (s.withHalt h).codeSel = s.codeSel := rfl
@[simp] theorem State.withHalt_dataSel (s : State) (h : HaltState) : (s.withHalt h).dataSel = s.dataSel := rfl
@[simp] theorem State.withHalt_segB6Rsvd (s : State) (h : HaltState) : (s.withHalt h).segB6Rsvd = s.segB6Rsvd := rfl
@[simp] theorem State.withHalt_program (s : State) (h : HaltState) : (s.withHalt h).program = s.program := rfl
@[simp] theorem State.withHalt_halt (s : State) (h : HaltState) : (s.withHalt h).halt = h := rfl
@[simp] theorem State.withHalt_reloadDue (s : State) (h : HaltState) : (s.withHalt h).reloadDue = s.reloadDue := rfl
@[simp] theorem State.withHalt_turns (s : State) (h : HaltState) : (s.withHalt h).turns = s.turns := rfl

@[simp] theorem State.withReloadDue_pc (s : State) (b : Bool) : (s.withReloadDue b).pc = s.pc := rfl
@[simp] theorem State.withReloadDue_mem (s : State) (b : Bool) : (s.withReloadDue b).mem = s.mem := rfl
@[simp] theorem State.withReloadDue_fault (s : State) (b : Bool) : (s.withReloadDue b).fault = s.fault := rfl
@[simp] theorem State.withReloadDue_flags (s : State) (b : Bool) : (s.withReloadDue b).flags = s.flags := rfl
@[simp] theorem State.withReloadDue_activeRegions (s : State) (b : Bool) : (s.withReloadDue b).activeRegions = s.activeRegions := rfl
@[simp] theorem State.withReloadDue_storageRegion (s : State) (b : Bool) : (s.withReloadDue b).storageRegion = s.storageRegion := rfl
@[simp] theorem State.withReloadDue_gdtr (s : State) (b : Bool) : (s.withReloadDue b).gdtr = s.gdtr := rfl
@[simp] theorem State.withReloadDue_idtr (s : State) (b : Bool) : (s.withReloadDue b).idtr = s.idtr := rfl
@[simp] theorem State.withReloadDue_codeSel (s : State) (b : Bool) : (s.withReloadDue b).codeSel = s.codeSel := rfl
@[simp] theorem State.withReloadDue_dataSel (s : State) (b : Bool) : (s.withReloadDue b).dataSel = s.dataSel := rfl
@[simp] theorem State.withReloadDue_segB6Rsvd (s : State) (b : Bool) : (s.withReloadDue b).segB6Rsvd = s.segB6Rsvd := rfl
@[simp] theorem State.withReloadDue_program (s : State) (b : Bool) : (s.withReloadDue b).program = s.program := rfl
@[simp] theorem State.withReloadDue_halt (s : State) (b : Bool) : (s.withReloadDue b).halt = s.halt := rfl
@[simp] theorem State.withReloadDue_reloadDue (s : State) (b : Bool) : (s.withReloadDue b).reloadDue = b := rfl
@[simp] theorem State.withReloadDue_turns (s : State) (b : Bool) : (s.withReloadDue b).turns = s.turns := rfl

@[simp] theorem State.withTurns_pc (s : State) (ts : List Turn) : (s.withTurns ts).pc = s.pc := rfl
@[simp] theorem State.withTurns_mem (s : State) (ts : List Turn) : (s.withTurns ts).mem = s.mem := rfl
@[simp] theorem State.withTurns_fault (s : State) (ts : List Turn) : (s.withTurns ts).fault = s.fault := rfl
@[simp] theorem State.withTurns_flags (s : State) (ts : List Turn) : (s.withTurns ts).flags = s.flags := rfl
@[simp] theorem State.withTurns_activeRegions (s : State) (ts : List Turn) : (s.withTurns ts).activeRegions = s.activeRegions := rfl
@[simp] theorem State.withTurns_storageRegion (s : State) (ts : List Turn) : (s.withTurns ts).storageRegion = s.storageRegion := rfl
@[simp] theorem State.withTurns_gdtr (s : State) (ts : List Turn) : (s.withTurns ts).gdtr = s.gdtr := rfl
@[simp] theorem State.withTurns_idtr (s : State) (ts : List Turn) : (s.withTurns ts).idtr = s.idtr := rfl
@[simp] theorem State.withTurns_codeSel (s : State) (ts : List Turn) : (s.withTurns ts).codeSel = s.codeSel := rfl
@[simp] theorem State.withTurns_dataSel (s : State) (ts : List Turn) : (s.withTurns ts).dataSel = s.dataSel := rfl
@[simp] theorem State.withTurns_segB6Rsvd (s : State) (ts : List Turn) : (s.withTurns ts).segB6Rsvd = s.segB6Rsvd := rfl
@[simp] theorem State.withTurns_program (s : State) (ts : List Turn) : (s.withTurns ts).program = s.program := rfl
@[simp] theorem State.withTurns_halt (s : State) (ts : List Turn) : (s.withTurns ts).halt = s.halt := rfl
@[simp] theorem State.withTurns_reloadDue (s : State) (ts : List Turn) : (s.withTurns ts).reloadDue = s.reloadDue := rfl
@[simp] theorem State.withTurns_turns (s : State) (ts : List Turn) : (s.withTurns ts).turns = ts := rfl

end Sys2Proof.Machine
end

