-- ==== Sys2Proof/Laws/Ops.lean ====
section
/-! SUPPORT. One lemma per shared operation that says once everything it can do: the flags, admission, raising a fault,
the template of a command, stores and the activation of a table. -/

namespace Sys2Proof.Machine

open Sys2Proof

/-! `IF` and the flags register. -/

theorem State.IF_of_flags {s t : State} (h : t.flags = s.flags) : t.IF = s.IF := by
  unfold State.IF
  rw [h]

@[simp] theorem replaceIF_IF (v : BitVec 32) (b : BitVec 1) : (replaceIF v b).extractLsb' Config.ifBit 1 = b := by
  ext i hi
  simp only [replaceIF, BitVec.getElem_extractLsb', BitVec.getLsbD_append]
  have : i = 0 := by omega
  subst this
  simp [Config.ifBit]

theorem replaceIF_other (v : BitVec 32) (b : BitVec 1) {j : Nat} (hj : j ≠ Config.ifBit) :
    (replaceIF v b).getLsbD j = v.getLsbD j := by
  simp only [Config.ifBit] at hj
  simp only [replaceIF, BitVec.getLsbD_append, BitVec.getLsbD_extractLsb']
  rcases Nat.lt_or_ge j 9 with h | h
  · simp [h]
  · have h1 : ¬ (j - 9 < 1) := by omega
    have h2 : ¬ j < 9 := by omega
    simp only [h1, h2, decide_false, if_false]
    rcases Nat.lt_or_ge j 32 with h3 | h3
    · have h4 : j - 9 - 1 < 22 := by omega
      have h5 : 10 + (j - 9 - 1) = j := by omega
      simp [h4, h5]
    · have h4 : ¬ (j - 9 - 1 < 22) := by omega
      rw [BitVec.getLsbD_of_ge v j h3]
      simp [h4]

@[simp] theorem State.setIF_IF (s : State) (b : BitVec 1) : (s.setIF b).IF = b := replaceIF_IF s.flags b

theorem State.IF_eq_zero_or_one (s : State) : s.IF = 0#1 ∨ s.IF = 1#1 := by
  generalize s.IF = b
  revert b
  decide

/-! Alignment and addresses of a footprint. -/

theorem aligned8_iff (dst : Word) : aligned8 dst = true ↔ dst.toNat % 8 = 0 := by
  unfold aligned8
  rw [beq_iff_eq, ← BitVec.toNat_inj, BitVec.extractLsb'_toNat]
  simp

theorem toNat_add_ofNat {dst : Word} (h : dst.toNat % 8 = 0) {k : Nat} (hk : k < 8) :
    (dst + BitVec.ofNat 32 k).toNat = dst.toNat + k := by
  have := dst.isLt
  rw [BitVec.toNat_add, BitVec.toNat_ofNat]
  omega

/-! Admission. -/

/-- Admission lets a command run exactly when it passes every test (rule R162). -/
theorem admission_eq_none_iff (W : Command) (dst : Word) {n : Nat} (hn : n ≤ 8) (s : State) :
    admission W dst n s = none ↔ s.admits dst n := by
  constructor
  · intro h
    unfold admission at h
    split at h
    · cases h
    · rename_i hIF
      split at h
      · cases h
      · rename_i hal
        split at h
        · cases h
        · rename_i hst
          split at h
          · cases h
          · rename_i hac
            have hal' : dst.toNat % 8 = 0 := (aligned8_iff dst).mp (by simpa using hal)
            refine ⟨(State.IF_eq_zero_or_one s).resolve_right hIF, hal', fun k hk => ?_, fun k hk => ?_⟩
            · have := (AddrSet.covers_iff ..).mp (by simpa using hst) k hk
              rwa [toNat_add_ofNat hal' (by omega)] at this
            · by_contra hc
              refine hac ((AddrSet.meets_iff ..).mpr ⟨k, hk, ?_⟩)
              rw [toNat_add_ofNat hal' (by omega)]
              simpa using hc
  · rintro ⟨hIF, hal, hst, hac⟩
    have h1 : s.storageRegion.covers dst n = true := (AddrSet.covers_iff ..).mpr fun k hk => by
      rw [toNat_add_ofNat hal (by omega)]
      exact hst k hk
    have h2 : s.activeRegions.meets dst n = false := by
      rw [Bool.eq_false_iff, ne_eq, AddrSet.meets_iff]
      rintro ⟨k, hk, hc⟩
      rw [toNat_add_ofNat hal (by omega), hac k hk] at hc
      cases hc
    simp [admission, hIF, (aligned8_iff dst).mpr hal, h1, h2]

/-- The second test of rule R162 fails. -/
theorem admission_of_interrupts (W : Command) (dst : Word) (n : Nat) {s : State} (h : s.IF = 1#1) :
    admission W dst n s = some (.interruptsEnabled W) := by
  simp [admission, h]

/-- The third test of rule R162 is the first to fail. -/
theorem admission_of_misaligned (W : Command) {dst : Word} (n : Nat) {s : State} (h : s.IF = 0#1)
    (ha : ¬ dst.toNat % 8 = 0) : admission W dst n s = some (.slotMisaligned dst) := by
  have hf : aligned8 dst = false := by
    rw [Bool.eq_false_iff, ne_eq, aligned8_iff]
    exact ha
  simp [admission, h, hf]

/-- The fourth test of rule R162 is the first to fail. -/
theorem admission_of_outside (W : Command) {dst : Word} {n : Nat} (hn : n ≤ 8) {s : State} (h : s.IF = 0#1)
    (ha : dst.toNat % 8 = 0) (hs : ∃ k, k < n ∧ s.storageRegion.contains (dst.toNat + k) = false) :
    admission W dst n s = some (.slotOutOfStorage dst) := by
  have hf : s.storageRegion.covers dst n = false := by
    rw [Bool.eq_false_iff, ne_eq, AddrSet.covers_iff]
    obtain ⟨k, hk, hc⟩ := hs
    intro hh
    have hk' := hh k hk
    rw [toNat_add_ofNat ha (by omega), hc] at hk'
    cases hk'
  simp [admission, h, (aligned8_iff dst).mpr ha, hf]

/-- The fifth test of rule R162 is the first to fail. -/
theorem admission_of_active (W : Command) {dst : Word} {n : Nat} (hn : n ≤ 8) {s : State} (h : s.IF = 0#1)
    (ha : dst.toNat % 8 = 0) (hs : ∀ k, k < n → s.storageRegion.contains (dst.toNat + k) = true)
    (hm : ∃ k, k < n ∧ s.activeRegions.contains (dst.toNat + k) = true) :
    admission W dst n s = some (.writeToActiveTable dst) := by
  have h1 : s.storageRegion.covers dst n = true := by
    rw [AddrSet.covers_iff]
    intro k hk
    rw [toNat_add_ofNat ha (by omega)]
    exact hs k hk
  have h2 : s.activeRegions.meets dst n = true := by
    rw [AddrSet.meets_iff]
    obtain ⟨k, hk, hc⟩ := hm
    refine ⟨k, hk, ?_⟩
    rw [toNat_add_ofNat ha (by omega)]
    exact hc
  simp [admission, h, (aligned8_iff dst).mpr ha, h1, h2]

/-- Admission's result depends only on the flags and the two address sets. -/
theorem admission_congr (W : Command) (dst : Word) (n : Nat) {s t : State} (hf : t.flags = s.flags)
    (ha : t.activeRegions = s.activeRegions) (hs : t.storageRegion = s.storageRegion) :
    admission W dst n t = admission W dst n s := by
  unfold admission
  rw [State.IF_of_flags hf, ha, hs]

/-- All that a command can answer: the first failing test's fault recorded and nothing else, or its body with `pc`
advanced (rules R100 and R165). It always answers a next state. -/
theorem command_cases (W : Command) (dst : Word) (n : Nat) (body s : State) :
    (∃ f, admission W dst n s = some f ∧ command W dst n body s = .next (s.withFault f)) ∨
    (admission W dst n s = none ∧ command W dst n body s = .next body.advance) := by
  unfold command raise
  cases h : admission W dst n s with
  | some f => exact .inl ⟨f, rfl, rfl⟩
  | none => exact .inr ⟨rfl, rfl⟩

theorem command_of_admits (W : Command) {dst : Word} {n : Nat} (hn : n ≤ 8) (body : State) {s : State}
    (h : s.admits dst n) : command W dst n body s = .next body.advance := by
  rcases command_cases W dst n body s with ⟨f, hf, -⟩ | ⟨-, h'⟩
  · rw [(admission_eq_none_iff W dst hn s).mpr h] at hf
    cases hf
  · exact h'

/-! Stores and reads. -/

theorem State.readByte_eq (s : State) (a : Word) : s.readByte a = s.mem.read a.toNat := rfl

@[simp] theorem State.storeBytes_mem (s : State) (a : Word) (bs : List Byte) :
    (s.storeBytes a bs).mem = s.mem.store a bs := rfl

/-- A store changes the storage and nothing else. -/
theorem State.storeBytes_sameEnvironment (s : State) (a : Word) (bs : List Byte) :
    s.sameEnvironment (s.storeBytes a bs) := by
  constructor <;> rfl

@[simp] theorem State.storeBytes_pc (s : State) (a : Word) (bs : List Byte) : (s.storeBytes a bs).pc = s.pc := rfl
@[simp] theorem State.storeBytes_fault (s : State) (a : Word) (bs : List Byte) :
    (s.storeBytes a bs).fault = s.fault := rfl

theorem State.sameEnvironment_trans {s t u : State} (h : s.sameEnvironment t) (h' : t.sameEnvironment u) :
    s.sameEnvironment u := by
  constructor
  · exact h'.flags.trans h.flags
  · exact h'.activeRegions.trans h.activeRegions
  · exact h'.storageRegion.trans h.storageRegion
  · exact h'.gdtr.trans h.gdtr
  · exact h'.idtr.trans h.idtr
  · exact h'.codeSel.trans h.codeSel
  · exact h'.dataSel.trans h.dataSel
  · exact h'.segB6Rsvd.trans h.segB6Rsvd
  · exact h'.program.trans h.program
  · exact h'.halt.trans h.halt
  · exact h'.reloadDue.trans h.reloadDue
  · exact h'.turns.trans h.turns

theorem State.advance_sameEnvironment (s : State) : s.sameEnvironment s.advance := by
  constructor <;> rfl

theorem State.withFault_sameEnvironment (s : State) (f : ModelFault) : s.sameEnvironment (s.withFault f) := by
  constructor <;> rfl

/-- A state with the same environment passes admission for the same commands. -/
theorem State.admits_of_sameEnvironment {s t : State} (h : s.sameEnvironment t) {dst : Word} {n : Nat}
    (ha : s.admits dst n) : t.admits dst n := by
  refine ⟨?_, ha.aligned, ?_, ?_⟩
  · rw [State.IF_of_flags h.flags]
    exact ha.interruptsOff
  · rw [h.storageRegion]
    exact ha.inStorage
  · rw [h.activeRegions]
    exact ha.notActive

/-- A store of at most 8 bytes at an aligned address leaves every byte outside them alone. -/
theorem read_store_outside_footprint (m : Memory) {dst : Word} (bs : List Byte) {a : Nat}
    (ha : ¬ inFootprint dst bs.length a) (hfit : dst.toNat + bs.length ≤ addressCount) :
    (m.store dst bs).read a = m.read a := by
  induction bs generalizing m dst with
  | nil => rfl
  | cons b bs ih =>
    have hlen : dst.toNat + (bs.length + 1) ≤ 4294967296 := hfit
    simp only [inFootprint, List.length_cons] at ha
    have hne : a ≠ dst.toNat := by omega
    rw [Memory.store]
    cases bs with
    | nil => exact Memory.read_write_ne m b hne
    | cons b' bs' =>
      have hd : (dst + 1#32).toNat = dst.toNat + 1 := by
        simp only [List.length_cons] at hlen
        bv_omega
      rw [ih (dst := dst + 1#32) _ (by simp only [inFootprint, hd]; omega)
          (show (dst + 1#32).toNat + (b' :: bs').length ≤ 4294967296 by omega),
        Memory.read_write_ne m b hne]

/-- Byte `k` of a store at an aligned address. -/
theorem read_store_at {m : Memory} (hm : m.wf = true) {dst : Word} (bs : List Byte) {k : Nat} (hk : k < bs.length)
    (hfit : dst.toNat + bs.length ≤ addressCount) : (m.store dst bs).read (dst.toNat + k) = bs[k] := by
  have hlen : dst.toNat + bs.length ≤ 4294967296 := hfit
  have e : (dst + BitVec.ofNat 32 k).toNat = dst.toNat + k := by
    rw [BitVec.toNat_add, BitVec.toNat_ofNat]
    omega
  have hd : (dst + BitVec.ofNat 32 k - dst).toNat = k := by bv_omega
  have := Memory.read_store hm dst (dst + BitVec.ofNat 32 k) bs (le_trans (by omega) hfit)
  rw [e, hd, List.getElem?_eq_getElem hk] at this
  simpa using this

theorem aligned_fits {dst : Word} (h : dst.toNat % 8 = 0) {n : Nat} (hn : n ≤ 8) : dst.toNat + n ≤ addressCount := by
  have := dst.isLt
  show dst.toNat + n ≤ 4294967296
  omega

/-! Activation. -/

@[simp] theorem State.activate_activeRegions (s : State) (r : TableReg) :
    (s.activate r).activeRegions =
      s.activeRegions.insert r.base.toNat (r.base.toNat + r.size1.toNat) := rfl

/-- Activation adds the table's bytes and removes none (rule R167). -/
theorem State.activate_contains {s : State} (hs : s.activeRegions.wf = true) (r : TableReg) (a : Nat) :
    (s.activate r).activeRegions.contains a = true ↔ s.activeRegions.contains a = true ∨ r.holds a := by
  rw [State.activate_activeRegions, AddrSet.contains_insert hs (by omega)]
  rfl

end Sys2Proof.Machine
end

