-- ==== Sys2Proof/Laws/Environment.lean ====
section
/-! SUPPORT. What each environment step can do when it answers a next state (spec rules R30, R166 and R167). -/

namespace Sys2Proof.Machine

open Sys2Proof

theorem passesAddressSpace_eq_false_iff (r : TableReg) :
    passesAddressSpace r = false ↔ r.base.toNat + r.size1.toNat < addressCount := by
  simp [passesAddressSpace]

/-- A slot holds a descriptor's bytes exactly when they agree outside the accessed bit and bits 5:4 of byte 6. -/
theorem slotDescribes_iff (B D : Slot) :
    slotDescribes B D = true ↔ slotsAgreeOutside ⟨0#8, 0#8, 0#8, 0#8, 0#8, 0x01#8, 0x30#8, 0#8⟩ B D := by
  have h1 : ∀ x y : Byte, x ||| 0x01#8 = y ||| 0x01#8 ↔ x &&& ~~~0x01#8 = y &&& ~~~0x01#8 := fun x y => by
    simp only [BitVec.eq_of_getLsbD_eq_iff, BitVec.getLsbD_or, BitVec.getLsbD_and, BitVec.getLsbD_not]
    refine forall_congr' fun i => imp_congr_right fun hi => ?_
    cases x.getLsbD i <;> cases y.getLsbD i <;> cases (0x01#8).getLsbD i <;> simp [hi]
  have h30 : ∀ x y : Byte, x ||| 0x30#8 = y ||| 0x30#8 ↔ x &&& ~~~0x30#8 = y &&& ~~~0x30#8 := fun x y => by
    simp only [BitVec.eq_of_getLsbD_eq_iff, BitVec.getLsbD_or, BitVec.getLsbD_and, BitVec.getLsbD_not]
    refine forall_congr' fun i => imp_congr_right fun hi => ?_
    cases x.getLsbD i <;> cases y.getLsbD i <;> cases (0x30#8).getLsbD i <;> simp [hi]
  have h0 : ∀ x : Byte, x &&& ~~~0#8 = x := fun x => BitVec.and_allOnes
  simp only [slotDescribes, slotsAgreeOutside, Bool.and_eq_true, beq_iff_eq, h0, h1, h30, and_assoc]

/-- A footprint that does not pass the last address, as a statement about its bytes. -/
theorem covers_iff_of_fits (set : AddrSet) {a : Word} {n : Nat} (h : a.toNat + n ≤ addressCount) :
    set.covers a n = true ↔ ∀ k, k < n → set.contains (a.toNat + k) = true := by
  rw [AddrSet.covers_iff]
  refine forall_congr' fun k => imp_congr_right fun hk => ?_
  have : (a + BitVec.ofNat 32 k).toNat = a.toNat + k := by
    have h' : a.toNat + n ≤ 4294967296 := h
    rw [BitVec.toNat_add, BitVec.toNat_ofNat]
    omega
  rw [this]

/-- The record's place (rule R43, D13). -/
theorem descriptorPlaced_iff (slot : Word) (s : State) : descriptorPlaced slot s = true ↔ s.provides slot 6 := by
  unfold descriptorPlaced State.provides
  rw [Bool.and_eq_true, aligned8_iff]
  exact and_congr_right fun h => covers_iff_of_fits _ (aligned_fits h (by omega))

/-- The table's place (D13). -/
theorem tablePlaced_iff {r : TableReg} (s : State) (hr : r.base.toNat + r.size1.toNat < addressCount) :
    tablePlaced r s = true ↔ s.provides r.base (r.size1.toNat + 1) := by
  unfold tablePlaced State.provides
  rw [Bool.and_eq_true, aligned8_iff, covers_iff_of_fits _ (by omega)]

/-- What `env.lgdt` tests is `segmentTableLoadable`. -/
theorem segmentTableLoad_iff {slot : Word} {r : TableReg} (s : State)
    (hr : r.base.toNat + r.size1.toNat < addressCount) :
    (descriptorPlaced slot s = true ∧ segmentTableBuilt r s = true) ↔ s.segmentTableLoadable slot r := by
  have hsize : r.size1.toNat + 1 = 8 * Config.gdtEntries ↔ r.size1 = 0x0017#16 := by
    rw [← BitVec.toNat_inj]
    show _ = 24 ↔ _ = 23
    omega
  simp only [segmentTableBuilt, Bool.and_eq_true, beq_iff_eq, descriptorPlaced_iff, tablePlaced_iff s hr,
    slotDescribes_iff, hsize]
  constructor
  · rintro ⟨h1, ⟨⟨h2, h3⟩, h4⟩, h5⟩
    exact ⟨h1, h3, h2, h4, h5⟩
  · rintro ⟨h1, h2, h3, h4, h5⟩
    exact ⟨h1, ⟨⟨h3, h2⟩, h4⟩, h5⟩

/-- What `env.lidt` tests is `interruptTableLoadable`. -/
theorem interruptTableLoad_iff {slot : Word} {r : TableReg} (s : State)
    (hr : r.base.toNat + r.size1.toNat < addressCount) :
    (descriptorPlaced slot s = true ∧ interruptTableBuilt r s = true) ↔ s.interruptTableLoadable slot r := by
  have hsize : r.size1.toNat + 1 = 8 * Config.idtEntries ↔ r.size1 = 0x07FF#16 := by
    rw [← BitVec.toNat_inj]
    show _ = 2048 ↔ _ = 2047
    omega
  have hgates : r.size1 = 0x07FF#16 → ((∀ v, v < Config.exceptionVectors →
      isExceptionGate (s.readSlot (r.entry v)) = true) ↔ ∀ v, v < 32 →
        s.mem.read (r.base.toNat + 8 * v + 4) = 0x00#8 ∧ s.mem.read (r.base.toNat + 8 * v + 5) = 0x8E#8) := by
    intro hs
    have hn : r.size1.toNat = 2047 := by
      rw [hs]
      rfl
    have hr' : r.base.toNat + r.size1.toNat < 4294967296 := hr
    refine forall_congr' fun v => imp_congr_right fun hv => ?_
    have at4 : (r.entry v + 4#32).toNat = r.base.toNat + 8 * v + 4 := by
      have hv' : v < 32 := hv
      simp only [TableReg.entry, BitVec.toNat_add, BitVec.toNat_ofNat]
      omega
    have at5 : (r.entry v + 5#32).toNat = r.base.toNat + 8 * v + 5 := by
      have hv' : v < 32 := hv
      simp only [TableReg.entry, BitVec.toNat_add, BitVec.toNat_ofNat]
      omega
    simp only [isExceptionGate, State.readSlot, State.readByte, at4, at5, Bool.and_eq_true, beq_iff_eq]
  simp only [interruptTableBuilt, Bool.and_eq_true, beq_iff_eq, descriptorPlaced_iff, tablePlaced_iff s hr, hsize,
    List.all_eq_true, List.mem_range]
  constructor
  · rintro ⟨h1, ⟨h2, h3⟩, h4⟩
    exact ⟨h1, h3, h2, (hgates h2).mp h4⟩
  · rintro ⟨h1, h2, h3, h4⟩
    exact ⟨h1, ⟨h3, h2⟩, (hgates h3).mpr h4⟩

/-- `env.lgdt` answers a next state only on a well-formed descriptor, and then loads and activates (rule R167). -/
theorem envLgdt_cases {slot : Word} {s t : State} (h : envLgdt slot s = .next t) :
    (readTableDescriptor slot s).base.toNat + (readTableDescriptor slot s).size1.toNat < addressCount ∧
    descriptorPlaced slot s = true ∧ segmentTableBuilt (readTableDescriptor slot s) s = true ∧
    t = (((s.withGdtr (readTableDescriptor slot s)).activate (readTableDescriptor slot s)).withReloadDue true).advance := by
  unfold envLgdt at h
  dsimp only at h
  split at h
  · cases h
  · rename_i hp
    split at h
    · cases h
    · rename_i hb
      injection h with h
      simp only [Bool.or_eq_true, not_or, Bool.not_eq_true', Bool.not_eq_false] at hb
      exact ⟨(passesAddressSpace_eq_false_iff _).mp (by simpa using hp), hb.1, hb.2, h.symm⟩

/-- `env.lidt` answers a next state only on a well-formed descriptor, and then loads and activates (rule R167). -/
theorem envLidt_cases {slot : Word} {s t : State} (h : envLidt slot s = .next t) :
    (readTableDescriptor slot s).base.toNat + (readTableDescriptor slot s).size1.toNat < addressCount ∧
    descriptorPlaced slot s = true ∧ interruptTableBuilt (readTableDescriptor slot s) s = true ∧
    t = ((s.withIdtr (readTableDescriptor slot s)).activate (readTableDescriptor slot s)).advance := by
  unfold envLidt at h
  dsimp only at h
  split at h
  · cases h
  · rename_i hp
    split at h
    · cases h
    · rename_i hb
      injection h with h
      simp only [Bool.or_eq_true, not_or, Bool.not_eq_true', Bool.not_eq_false] at hb
      exact ⟨(passesAddressSpace_eq_false_iff _).mp (by simpa using hp), hb.1, hb.2, h.symm⟩

/-- All that an environment step of a program can do when it answers a next state. -/
theorem execEnv_cases {e : EnvStep} {s t : State} (h : execEnv e s = .next t) :
    (e = .cli ∧ t = (s.setIF 0#1).advance) ∨
    (e = .sti ∧ t = (s.setIF 1#1).advance) ∨
    (e = .readInterruptEnable ∧ t = s.advance) ∨
    (e = .haltUntilInterrupt ∧ t = s.withHalt .untilInterrupt) ∨
    (e = .haltPermanently ∧ t = (s.setIF 0#1).withHalt .permanently) ∨
    (∃ cs ds, e = .reload cs ds ∧ t = ((s.withSelectors cs ds).withReloadDue false).advance) ∨
    (∃ slot r, e = .lgdt slot ∧ r.base.toNat + r.size1.toNat < addressCount ∧
      t = (((s.withGdtr r).activate r).withReloadDue true).advance) ∨
    (∃ slot r, e = .lidt slot ∧ r.base.toNat + r.size1.toNat < addressCount ∧
      t = ((s.withIdtr r).activate r).advance) := by
  cases e with
  | cli =>
    injection h with h
    exact .inl ⟨rfl, h.symm⟩
  | sti =>
    injection h with h
    exact .inr (.inl ⟨rfl, h.symm⟩)
  | readInterruptEnable =>
    injection h with h
    exact .inr (.inr (.inl ⟨rfl, h.symm⟩))
  | haltUntilInterrupt =>
    injection h with h
    exact .inr (.inr (.inr (.inl ⟨rfl, h.symm⟩)))
  | haltPermanently =>
    injection h with h
    exact .inr (.inr (.inr (.inr (.inl ⟨rfl, h.symm⟩))))
  | reload cs ds =>
    injection h with h
    exact .inr (.inr (.inr (.inr (.inr (.inl ⟨cs, ds, rfl, h.symm⟩)))))
  | lgdt slot =>
    obtain ⟨h1, -, -, h2⟩ := envLgdt_cases h
    exact .inr (.inr (.inr (.inr (.inr (.inr (.inl ⟨slot, _, rfl, h1, h2⟩))))))
  | lidt slot =>
    obtain ⟨h1, -, -, h2⟩ := envLidt_cases h
    exact .inr (.inr (.inr (.inr (.inr (.inr (.inr ⟨slot, _, rfl, h1, h2⟩))))))

/-- No environment step of a program writes the storage. -/
theorem execEnv_mem {e : EnvStep} {s t : State} (h : execEnv e s = .next t) : t.mem = s.mem := by
  rcases execEnv_cases h with ⟨-, rfl⟩ | ⟨-, rfl⟩ | ⟨-, rfl⟩ | ⟨-, rfl⟩ | ⟨-, rfl⟩ | ⟨_, _, -, rfl⟩ |
    ⟨_, _, -, -, rfl⟩ | ⟨_, _, -, -, rfl⟩ <;> rfl

/-- The accessed bit's address is byte 5 of an aligned slot all of whose bytes are active (rule R30). -/
theorem accessedAllowed_iff (addr : Word) (s : State) :
    accessedAllowed addr s = true ↔
      addr.toNat % 8 = 5 ∧ ∀ k, k < 8 → s.activeRegions.contains (addr.toNat - 5 + k) = true := by
  unfold accessedAllowed
  rw [Bool.and_eq_true, beq_iff_eq, ← BitVec.toNat_inj, BitVec.extractLsb'_toNat, AddrSet.covers_iff]
  have hm : (addr.toNat >>> 0 % 2 ^ 3 = (5#3).toNat) ↔ addr.toNat % 8 = 5 := by simp
  rw [hm]
  refine and_congr_right fun h5 => ?_
  have hs : (addr - 5#32).toNat = addr.toNat - 5 := by bv_omega
  have hal : (addr - 5#32).toNat % 8 = 0 := by
    rw [hs]
    omega
  constructor
  · intro h k hk
    have := h k hk
    rwa [toNat_add_ofNat hal hk, hs] at this
  · intro h k hk
    rw [toNat_add_ofNat hal hk, hs]
    exact h k hk

/-- All that the CPU's accessed-bit write can do when it answers a next state (rule R30). -/
theorem envSetAccessed_cases {addr : Word} {s t : State} (h : envSetAccessed addr s = .next t) :
    accessedAllowed addr s = true ∧ t = s.withMem (s.mem.write addr.toNat (s.readByte addr ||| 0x01#8)) := by
  unfold envSetAccessed at h
  split at h
  · rename_i ha
    injection h with h
    exact ⟨ha, h.symm⟩
  · cases h

end Sys2Proof.Machine
end

