-- ==== Sys2Proof/Laws/Exec.lean ====
section
/-! SUPPORT. What a command does, once for the three: it always answers a next state, either the first failing test's
fault recorded or its bytes stored and `pc` advanced (spec rules R100, R101, R120, R140). -/

namespace Sys2Proof.Machine

open Sys2Proof

/-- The 8 bytes of a gate, byte 4 zero (rule R71). -/
def gateBytes (src : GateSource) : List Byte := gateLowBytes src ++ 0x00#8 :: gateHighBytes src

/-- The bytes a command leaves in its footprint. -/
def commandBytes (i : Instr) (s : State) : List Byte :=
  match i with
  | .segEncode dst src => segBytes src (reservedBits s.segB6Rsvd (s.readByte (dst + 6#32)))
  | .gateEncode _ src => gateBytes src
  | .tdescEncode _ src => tdescBytes src

theorem commandBytes_length (i : Instr) (s : State) : (commandBytes i s).length = footprintOf i := by
  cases i <;> rfl

theorem footprintOf_le (i : Instr) : footprintOf i ≤ 8 := by
  cases i <;> simp [footprintOf]

/-- The body of a command, as its meaning has it. -/
def commandBody (i : Instr) (s : State) : State :=
  match i with
  | .segEncode dst src => segBody dst src s
  | .gateEncode dst src => gateBody dst src s
  | .tdescEncode dst src => tdescBody dst src s

/-- Every meaning is the template of rule R100. -/
theorem exec_eq_command (i : Instr) (s : State) :
    exec i s = command (encode i) i.dst (footprintOf i) (commandBody i s) s := by
  cases i <;> rfl

/-- A body changes the storage and nothing else. -/
theorem commandBody_sameEnvironment (i : Instr) (s : State) :
    s.sameEnvironment (commandBody i s) ∧ (commandBody i s).pc = s.pc ∧ (commandBody i s).fault = s.fault := by
  cases i with
  | segEncode dst src => exact ⟨State.storeBytes_sameEnvironment s _ _, rfl, rfl⟩
  | gateEncode dst src =>
    exact ⟨State.sameEnvironment_trans (State.storeBytes_sameEnvironment s _ _)
      (State.sameEnvironment_trans (State.storeBytes_sameEnvironment _ _ _)
        (State.storeBytes_sameEnvironment _ _ _)), rfl, rfl⟩
  | tdescEncode dst src => exact ⟨State.storeBytes_sameEnvironment s _ _, rfl, rfl⟩

theorem segBody_mem (dst : Word) (src : SegSource) (s : State) :
    (segBody dst src s).mem = s.mem.store dst (commandBytes (.segEncode dst src) s) := rfl

theorem tdescBody_mem (dst : Word) (src : TdescSource) (s : State) :
    (tdescBody dst src s).mem = s.mem.store dst (tdescBytes src) := rfl

/-- GATE_ENCODE clears, then writes bytes 0 to 3, then bytes 5 to 7 (rule R120). -/
theorem gateBody_stores (dst : Word) (src : GateSource) (s : State) :
    (gateBody dst src s).mem =
      ((s.mem.store dst (List.replicate 8 0x00#8)).store dst (gateLowBytes src)).store (dst + 5#32)
        (gateHighBytes src) := rfl

/-- A body keeps the canonical form of the storage. -/
theorem commandBody_wf (i : Instr) {s : State} (h : s.mem.wf = true) : (commandBody i s).mem.wf = true := by
  cases i with
  | segEncode dst src =>
    rw [commandBody, segBody_mem]
    exact Memory.wf_store h _ _
  | gateEncode dst src =>
    rw [commandBody, gateBody_stores]
    exact Memory.wf_store (Memory.wf_store (Memory.wf_store h _ _) _ _) _ _
  | tdescEncode dst src =>
    rw [commandBody, tdescBody_mem]
    exact Memory.wf_store h _ _

/-- The last three bytes of a gate stand inside its slot. -/
theorem toNat_add_five {dst : Word} (h : dst.toNat % 8 = 0) : (dst + 5#32).toNat = dst.toNat + 5 :=
  toNat_add_ofNat h (by decide)

/-- The three stores of a gate write no byte outside its slot. -/
theorem gateBody_frame (dst : Word) (src : GateSource) (s : State) (h : dst.toNat % 8 = 0) {a : Nat}
    (ha : ¬ inFootprint dst 8 a) : (gateBody dst src s).mem.read a = s.mem.read a := by
  have h5 : (dst + 5#32).toNat = dst.toNat + 5 := toNat_add_five h
  have hf : dst.toNat + 8 ≤ 4294967296 := aligned_fits h (le_refl 8)
  have hi : ¬ inFootprint (dst + 5#32) (gateHighBytes src).length a := by
    simp only [inFootprint, h5, gateHighBytes, List.length_cons, List.length_nil] at ha ⊢
    omega
  have lo : ¬ inFootprint dst (gateLowBytes src).length a := by
    simp only [inFootprint, gateLowBytes, List.length_cons, List.length_nil] at ha ⊢
    omega
  rw [gateBody_stores, read_store_outside_footprint _ _ hi (show (dst + 5#32).toNat + 3 ≤ 4294967296 by omega),
    read_store_outside_footprint _ _ lo (show dst.toNat + 4 ≤ 4294967296 by omega),
    read_store_outside_footprint _ _ (by simpa using ha) (show dst.toNat + (List.replicate 8 0x00#8).length ≤ _ from hf)]

/-- A body writes no byte outside its command's footprint (rule R44). -/
theorem commandBody_frame (i : Instr) (s : State) (h : i.dst.toNat % 8 = 0) {a : Nat}
    (ha : ¬ inFootprint i.dst (footprintOf i) a) : (commandBody i s).mem.read a = s.mem.read a := by
  cases i with
  | segEncode dst src =>
    rw [commandBody, segBody_mem]
    exact read_store_outside_footprint s.mem _ ha (aligned_fits h (le_refl 8))
  | gateEncode dst src => exact gateBody_frame dst src s h ha
  | tdescEncode dst src =>
    rw [commandBody, tdescBody_mem]
    exact read_store_outside_footprint s.mem _ ha (aligned_fits h (show 6 ≤ 8 by omega))

/-- All that a command can do when it answers `next t`. -/
theorem exec_cases {i : Instr} {s t : State} (h : exec i s = .next t) :
    (∃ f, admission (encode i) i.dst (footprintOf i) s = some f ∧ t = s.withFault f) ∨
    (s.admits i.dst (footprintOf i) ∧ t = (commandBody i s).advance) := by
  rw [exec_eq_command] at h
  rcases command_cases (encode i) i.dst (footprintOf i) (commandBody i s) s with ⟨f, hf, he⟩ | ⟨hn, he⟩
  · rw [he] at h
    injection h with h
    exact .inl ⟨f, hf, h.symm⟩
  · rw [he] at h
    injection h with h
    exact .inr ⟨(admission_eq_none_iff _ _ (footprintOf_le i) s).mp hn, h.symm⟩

/-- A command that fails a test of rule R162 records the fault and nothing else (rule R165). -/
theorem exec_of_admission {i : Instr} {s : State} {f : ModelFault}
    (h : admission (encode i) i.dst (footprintOf i) s = some f) : exec i s = .next { s with fault := some f } := by
  rw [exec_eq_command, command, h]
  rfl

/-- A command that passes admission completes (rule R100: "A command's body never faults"). -/
theorem exec_of_admits (i : Instr) {s : State} (h : s.admits i.dst (footprintOf i)) :
    exec i s = .next (commandBody i s).advance := by
  rw [exec_eq_command, command_of_admits _ (footprintOf_le i) _ h]

/-- A gate's clear and writes together are one store of its 8 bytes (rule R120). -/
theorem gateBody_mem (dst : Word) (src : GateSource) {s : State} (hm : s.mem.wf = true) (h : dst.toNat % 8 = 0) :
    (gateBody dst src s).mem = s.mem.store dst (gateBytes src) := by
  have h5 : (dst + 5#32).toNat = dst.toNat + 5 := toNat_add_five h
  have hf' : dst.toNat + 8 ≤ 4294967296 := aligned_fits h (le_refl 8)
  have w1 := Memory.wf_store hm dst (List.replicate 8 0x00#8)
  have w2 := Memory.wf_store w1 dst (gateLowBytes src)
  refine Memory.ext_of_wf (commandBody_wf (.gateEncode dst src) hm) (Memory.wf_store hm _ _) fun a => ?_
  by_cases ha : inFootprint dst 8 a
  · obtain ⟨k, rfl⟩ := Nat.exists_eq_add_of_le ha.1
    have hk : k < 8 := by
      have := ha.2
      omega
    rw [read_store_at hm (gateBytes src) hk (aligned_fits h (le_refl 8))]
    rw [gateBody_stores]
    rcases Nat.lt_or_ge k 5 with h4 | h4
    · rw [read_store_outside_footprint _ _ (by simp only [inFootprint, h5]; omega)
        (show (dst + 5#32).toNat + 3 ≤ 4294967296 by omega)]
      rcases Nat.lt_or_ge k 4 with h3 | h3
      · rw [read_store_at w1 (gateLowBytes src) h3 (show dst.toNat + 4 ≤ 4294967296 by omega)]
        exact (List.getElem_append_left h3).symm
      · have lo : ¬ inFootprint dst (gateLowBytes src).length (dst.toNat + k) := by
          simp only [inFootprint, gateLowBytes, List.length_cons, List.length_nil]
          omega
        rw [read_store_outside_footprint _ _ lo (show dst.toNat + 4 ≤ 4294967296 by omega),
          read_store_at hm _ (by simpa using hk) (show dst.toNat + (List.replicate 8 0x00#8).length ≤ _ from hf')]
        have : k = 4 := by omega
        subst this
        rfl
    · obtain ⟨j, rfl⟩ := Nat.exists_eq_add_of_le h4
      have hj : j < 3 := by omega
      have e : dst.toNat + (5 + j) = (dst + 5#32).toNat + j := by omega
      simp only [e]
      rw [read_store_at w2 (gateHighBytes src) hj (show (dst + 5#32).toNat + 3 ≤ 4294967296 by omega)]
      have : j = 0 ∨ j = 1 ∨ j = 2 := by omega
      rcases this with rfl | rfl | rfl <;> rfl
  · rw [read_store_outside_footprint _ _ ha (aligned_fits h (le_refl 8))]
    exact gateBody_frame dst src s h ha

/-- A body is one store of its command's bytes. -/
theorem commandBody_mem (i : Instr) {s : State} (hm : s.mem.wf = true) (h : i.dst.toNat % 8 = 0) :
    (commandBody i s).mem = s.mem.store i.dst (commandBytes i s) := by
  cases i with
  | segEncode dst src => exact segBody_mem dst src s
  | gateEncode dst src => exact gateBody_mem dst src hm h
  | tdescEncode dst src => exact tdescBody_mem dst src s

/-- Byte `k` of the footprint after a command that passes admission. -/
theorem commandBody_read (i : Instr) {s : State} (hm : s.mem.wf = true) (h : i.dst.toNat % 8 = 0) {k : Nat}
    (hk : k < (commandBytes i s).length) : (commandBody i s).mem.read (i.dst.toNat + k) = (commandBytes i s)[k] := by
  rw [commandBody_mem i hm h]
  exact read_store_at hm _ hk (aligned_fits h (commandBytes_length i s ▸ footprintOf_le i))

/-- A body is the old state with another storage. -/
theorem commandBody_eq (i : Instr) (s : State) : commandBody i s = { s with mem := (commandBody i s).mem } := by
  cases i <;> rfl

/-- The next state of a command that passes admission, as a record update. -/
theorem exec_of_admits_eq (i : Instr) {s : State} (h : s.admits i.dst (footprintOf i)) :
    exec i s = .next { s with pc := s.pc + 1, mem := (commandBody i s).mem } := by
  rw [exec_of_admits i h]
  conv_lhs => rw [commandBody_eq i s]
  rfl

/-- The slot a state holds, by the bytes of its storage. -/
theorem readSlot_eq {s : State} {dst : Word} (h : dst.toNat % 8 = 0) :
    s.readSlot dst =
      ⟨s.mem.read dst.toNat, s.mem.read (dst.toNat + 1), s.mem.read (dst.toNat + 2), s.mem.read (dst.toNat + 3),
        s.mem.read (dst.toNat + 4), s.mem.read (dst.toNat + 5), s.mem.read (dst.toNat + 6),
        s.mem.read (dst.toNat + 7)⟩ := by
  have e : ∀ k, k < 8 → (dst + BitVec.ofNat 32 k).toNat = dst.toNat + k := fun k hk => toNat_add_ofNat h hk
  unfold State.readSlot State.readByte
  rw [e 1 (by decide), e 2 (by decide), e 3 (by decide), e 4 (by decide), e 5 (by decide), e 6 (by decide),
    e 7 (by decide)]

end Sys2Proof.Machine
end

