-- ==== Sys2Proof/Laws/PerInstr.lean ====
section
/-! SUPPORT. The family `EncodedRow`, stated of every command as syntax: its word carries the fixed bits of its own row of
the opcode table (spec rule R79), so the word matches that row. -/

namespace Sys2Proof.Laws.EncodedRow

open Sys2Proof Sys2Proof.Machine

/-- The command's word matches its row: `W & mask = pattern` (rule R79). -/
def Statement (i : Instr) : Prop := i.row.covers (encode i) = true

theorem segF0_reserved (src : SegSource) : (segF0 src).extractLsb' 4 1 = 0#1 := by
  unfold segF0
  generalize src.p = p, src.dpl = dpl, src.x = x, src.dc = dc, src.rw = rw, src.a = a
  revert p dpl x dc rw a
  decide

theorem segF1_reserved (src : SegSource) : (segF1 src).extractLsb' 0 6 = 0#6 := by
  unfold segF1
  generalize src.g = g, src.db = db
  revert g db
  decide

theorem upperHalf_zero (v : Half) : (0#16 ++ v : Word).extractLsb' 16 16 = 0#16 :=
  BitVec.extractLsb'_append_eq_left

theorem segEncode (dst : Word) (src : SegSource) : Statement (.segEncode dst src) := by
  refine (segRow_covers_iff _).mpr ⟨rawWord_op .., rawWord_rsv .., ?_, ?_⟩
  · rw [← extract_extract _ 16 4 8 1 (by decide), encode, packCommand_eq_rawWord, rawWord_f0]
    exact segF0_reserved src
  · rw [← extract_extract _ 24 0 8 6 (by decide), encode, packCommand_eq_rawWord, rawWord_f1]
    exact segF1_reserved src

theorem gateEncode (dst : Word) (src : GateSource) : Statement (.gateEncode dst src) := by
  refine (gateRow_covers_iff _).mpr ⟨rawWord_op .., rawWord_rsv .., rawWord_f1 .., ?_⟩
  rw [← extract_extract _ 32 16 32 16 (by decide), encode, packCommand_eq_rawWord, rawWord_opb]
  exact upperHalf_zero src.sel

theorem tdescEncode (dst : Word) (src : TdescSource) : Statement (.tdescEncode dst src) := by
  have hz : (0#8 ++ 0#8 : BitVec 16) = 0#16 := by decide
  refine (tdescRow_covers_iff _).mpr ⟨rawWord_op .., rawWord_rsv .., ?_, ?_⟩
  · refine Eq.trans ?_ hz
    rw [encode, packCommand_eq_rawWord]
    refine (BitVec.extractLsb'_append_eq_of_le (by decide)).trans <|
      (BitVec.extractLsb'_append_eq_of_le (by decide)).trans ?_
    apply BitVec.eq_of_getLsbD_eq
    intro j hj
    rw [BitVec.getLsbD_extractLsb', BitVec.getLsbD_append, BitVec.getLsbD_append]
    rcases Nat.lt_or_ge j 8 with h | h
    · simp [h]
    · have l : j - 8 < 8 := by omega
      have g : ¬ j < 8 := by omega
      simp [g, l]
  · rw [← extract_extract _ 32 16 32 16 (by decide), encode, packCommand_eq_rawWord, rawWord_opb]
    exact upperHalf_zero src.size1

end Sys2Proof.Laws.EncodedRow
end

