-- ==== Sys2Proof/Laws/Step.lean ====
section
/-! SUPPORT. What a step can do, once: every later proof about a step cites these cases (spec rules R22, R30, R165 and
R166). -/

namespace Sys2Proof.Machine

open Sys2Proof

theorem stopped_eq_none_iff (s : State) : stopped s = none ↔ s.enabled := by
  unfold stopped State.enabled
  cases s.fault with
  | some f => simp
  | none => cases s.halt <;> simp

theorem step_of_enabled {s : State} (h : s.enabled) : step s = takeTurn s := by
  unfold step
  rw [(stopped_eq_none_iff s).mpr h]

theorem step_of_fault {s : State} {f : ModelFault} (h : s.fault = some f) : step s = .fault (.faulted f) := by
  simp [step, stopped, h]

theorem takeTurn_of_programMoves {s : State} {rest : List Turn} (h : s.programMoves rest) :
    takeTurn s = programTurn (s.withTurns rest) := by
  unfold takeTurn
  rcases h with ⟨h, rfl⟩ | h
  · rw [h]
    cases s
    simp_all [State.withTurns]
  · rw [h]

theorem programTurn_of_item {s : State} {it : ProgItem} (h : s.program[s.pc]? = some it)
    (hr : s.reloadDue = false ∨ it.isReload = true) : programTurn s = runItem it s := by
  unfold programTurn State.nextItem
  rw [h]
  rcases hr with hr | hr <;> simp [hr]

/-- The next step of a state that issues an item runs that item. -/
theorem step_of_issues {s : State} {rest : List Turn} {it : ProgItem} (h : s.issues rest it) :
    step s = runItem it (s.withTurns rest) := by
  obtain ⟨he, hp, hi, hr⟩ := h
  rw [step_of_enabled he, takeTurn_of_programMoves hp]
  exact programTurn_of_item (s := s.withTurns rest) hi (.inl hr)

/-- A step answers a next state only where one is enabled, and then by a CPU turn or by an item of the program. -/
theorem step_cases {s t : State} (h : step s = .next t) :
    s.enabled ∧
    ((∃ addr rest, s.turns = .setAccessed addr :: rest ∧ envSetAccessed addr (s.withTurns rest) = .next t) ∨
     (∃ rest it, s.programMoves rest ∧ s.program[s.pc]? = some it ∧ (s.reloadDue = true → it.isReload = true) ∧
        runItem it (s.withTurns rest) = .next t)) := by
  unfold step at h
  split at h
  · cases h
  · rename_i hs
    refine ⟨(stopped_eq_none_iff s).mp hs, ?_⟩
    have key : ∀ rest, programTurn (s.withTurns rest) = .next t →
        ∃ it, s.program[s.pc]? = some it ∧ (s.reloadDue = true → it.isReload = true) ∧
          runItem it (s.withTurns rest) = .next t := by
      intro rest hp
      unfold programTurn State.nextItem at hp
      split at hp
      · cases hp
      · rename_i it hi
        split at hp
        · cases hp
        · rename_i hr
          refine ⟨it, hi, fun hd => ?_, hp⟩
          simp only [State.withTurns_reloadDue, Bool.and_eq_true, Bool.not_eq_true', not_and, Bool.not_eq_false] at hr
          exact hr hd
    cases ht : s.turns with
    | nil =>
      have hm : s.programMoves [] := .inl ⟨ht, rfl⟩
      rw [takeTurn_of_programMoves hm] at h
      obtain ⟨it, h1, h2, h3⟩ := key [] h
      exact .inr ⟨[], it, hm, h1, h2, h3⟩
    | cons turn rest =>
      cases turn with
      | program =>
        have hm : s.programMoves rest := .inr ht
        rw [takeTurn_of_programMoves hm] at h
        obtain ⟨it, h1, h2, h3⟩ := key rest h
        exact .inr ⟨rest, it, hm, h1, h2, h3⟩
      | setAccessed addr =>
        unfold takeTurn at h
        rw [ht] at h
        exact .inl ⟨addr, rest, rfl, h⟩

/-- What one item can do when it answers a next state. -/
theorem runItem_cases {it : ProgItem} {s t : State} (h : runItem it s = .next t) :
    (∃ W r, it = .word W ∧ decode W = .error r ∧ t = s.withFault (.reservedCommand W)) ∨
    (∃ W i, it = .word W ∧ decode W = .ok i ∧ exec i s = .next t) ∨
    (∃ e, it = .env e ∧ execEnv e s = .next t) := by
  cases it with
  | env e => exact .inr (.inr ⟨e, rfl, h⟩)
  | word W =>
    simp only [runItem] at h
    split at h
    · rename_i i hi
      exact .inr (.inl ⟨W, i, rfl, hi, h⟩)
    · rename_i r hr
      injection h with h
      exact .inl ⟨W, r, rfl, hr, h.symm⟩

/-- The schedule after a program's turn is the old one less its first turn. -/
theorem State.programMoves_tail {s : State} {rest : List Turn} (h : s.programMoves rest) : rest = s.turns.tail := by
  rcases h with ⟨h, rfl⟩ | h <;> simp [h]

/-- Once for all proofs about a step: when it answers a next state, a step was enabled, and it was the CPU's accessed-bit
write, a fault of the program's word, a completed command, or an environment step of the program. -/
theorem step_next_cases {s t : State} (h : step s = .next t) :
    s.enabled ∧
    ((∃ addr rest, s.turns = .setAccessed addr :: rest ∧ accessedAllowed addr s = true ∧
        t = { s with turns := rest, mem := s.mem.write addr.toNat (s.readByte addr ||| 0x01#8) }) ∨
     (∃ it, (∃ rest, s.programMoves rest) ∧ s.program[s.pc]? = some it ∧
       ((∃ W f, it = .word W ∧ t = { s with turns := s.turns.tail, fault := some f }) ∨
        (∃ W i, it = .word W ∧ decode W = .ok i ∧ s.admits i.dst (footprintOf i) ∧
          t = { s with turns := s.turns.tail, pc := s.pc + 1,
                       mem := (commandBody i { s with turns := s.turns.tail }).mem }) ∨
        (∃ e, it = .env e ∧ execEnv e { s with turns := s.turns.tail } = .next t)))) := by
  obtain ⟨he, ⟨addr, rest, hT, hA⟩ | ⟨rest, it, hp, hi, hr, hrun⟩⟩ := step_cases h
  · obtain ⟨h1, rfl⟩ := envSetAccessed_cases hA
    exact ⟨he, .inl ⟨addr, rest, hT, h1, rfl⟩⟩
  · refine ⟨he, .inr ⟨it, ⟨rest, hp⟩, hi, ?_⟩⟩
    rw [State.withTurns, State.programMoves_tail hp] at hrun
    rcases runItem_cases hrun with ⟨W, r, h1, -, rfl⟩ | ⟨W, i, h1, hd, hx⟩ | ⟨e, h1, hx⟩
    · exact .inl ⟨W, _, h1, rfl⟩
    · rcases exec_cases hx with ⟨f, -, rfl⟩ | ⟨ha, rfl⟩
      · exact .inl ⟨W, f, h1, rfl⟩
      · refine .inr (.inl ⟨W, i, h1, hd, ⟨ha.1, ha.2, ha.3, ha.4⟩, ?_⟩)
        have hx' := exec_of_admits_eq i ha
        rw [exec_of_admits i ha] at hx'
        injection hx'
    · exact .inr (.inr ⟨e, h1, hx⟩)

/-- One more step of a run. -/
theorem core_run_succ (M : Host.Core) (k : Nat) (s : M.State) :
    M.run (k + 1) s =
      match M.step s with
      | .next s' => M.run k s'
      | .fault r => .fault r
      | .refused r => .refused r := rfl

/-- The item placed for a fetch is the one at `pc`. -/
theorem placeItem_get (program : List ProgItem) (n : Nat) (it : ProgItem) :
    (placeItem program n it)[n]? = some it := by
  unfold placeItem
  have hlen : (program.take n ++ List.replicate (n - program.length) (ProgItem.word 0#128)).length = n := by
    simp only [List.length_append, List.length_take, List.length_replicate]
    omega
  rw [List.getElem?_append_right (by omega), hlen]
  simp

/-- The state prepared for a word issues it. -/
theorem State.withNextWord_issues (s : State) (W : Command) :
    (s.withNextWord W).issues s.turns (.word W) :=
  ⟨⟨rfl, rfl⟩, .inr rfl, placeItem_get s.program s.pc (.word W), rfl⟩

end Sys2Proof.Machine
end

