-- ==== Sys2Proof/Machine/Boot.lean ====
section
/-! DEFINITION. The bootstrap sequence at the block's boundary (spec 70_reset_and_hazards.md sections 1 and 2): its
parameters, its launch premises, its program and the end state the spec gives. The parameters are arguments, as rule
R8 says; State.reset holds no program (log 23). -/

namespace Sys2Proof.Machine

open Sys2Proof

/-- Where the boot program places its tables and table descriptors (rule R8). -/
structure Placement where
  gdtBase  : Word
  idtBase  : Word
  gdtrSlot : Word
  idtrSlot : Word
  deriving DecidableEq, Repr

/-- The handler entry points, vector 0..31 to 32-bit address (`HandlerTable`, rule R8, D18). -/
abbrev HandlerTable := Fin Config.exceptionVectors → Word

/-- Two footprints `a .. a+m-1` and `b .. b+n-1` have no byte in common. -/
def footprintsDisjoint (a : Word) (m : Nat) (b : Word) (n : Nat) : Bool :=
  decide (a.toNat + m ≤ b.toNat) || decide (b.toNat + n ≤ a.toNat)

/-- The footprint `a .. a+n-1` ends within the address space, so that it does not wrap. -/
def footprintFits (a : Word) (n : Nat) : Bool := decide (a.toNat + n ≤ addressCount)

/-- The four footprints of the placement with their sizes (70_reset_and_hazards.md section 2). -/
def Placement.footprints (p : Placement) : List (Word × Nat) :=
  [(p.gdtBase, 24), (p.idtBase, 2048), (p.gdtrSlot, 6), (p.idtrSlot, 6)]

/-- No footprint of the list meets a later one. -/
def pairwiseDisjoint : List (Word × Nat) → Bool
  | [] => true
  | (a, m) :: rest => (rest.all fun q => footprintsDisjoint a m q.1 q.2) && pairwiseDisjoint rest

/-- What the placement owes: each 8-byte aligned, footprints pairwise disjoint, none wrapping, all inside `StorageRegion`
(70_reset_and_hazards.md section 2, D13). -/
def Placement.wf (p : Placement) (storage : AddrSet) : Bool :=
  (p.footprints.all fun q => aligned8 q.1 && footprintFits q.1 q.2 && storage.covers q.1 q.2) && pairwiseDisjoint p.footprints

/-- Every byte `a .. a+n-1` is zero. -/
def zeroBytes (s : State) (a : Word) (n : Nat) : Bool :=
  (List.range n).all fun k => s.readByte (a + BitVec.ofNat 32 k) == 0x00#8

/-- The launch premises of the boot program (rules R181 and R192); at launch nothing has halted and no reload is due. -/
def bootPremises (p : Placement) (s : State) : Bool :=
  s.IF == 0#1 && s.activeRegions == [] && s.fault == none && s.pc == 0 && s.halt == .running && !s.reloadDue &&
    p.wf s.storageRegion &&
    zeroBytes s p.gdtBase 24 && zeroBytes s p.idtBase 2048

/-- A command as an item of a program: its word. -/
def ProgItem.command (i : Instr) : ProgItem := .word (encode i)

/-- The table descriptor of a table of `n` entries, `size1 = 8*n - 1` (rule R142). -/
def tableDescriptorSource (base : Word) (n : Nat) : TdescSource := ⟨base, BitVec.ofNat 16 (8 * n - 1)⟩

/-- Step 1 (rule R182). -/
def bootDisableInterrupts : List ProgItem := [.env .cli]

/-- Step 2 (rule R183). -/
def bootSegmentTable (p : Placement) : List ProgItem :=
  [.command (kcode (p.gdtBase + 8#32)), .command (kdata (p.gdtBase + 16#32)),
   .command (.tdescEncode p.gdtrSlot (tableDescriptorSource p.gdtBase Config.gdtEntries)),
   .env (.lgdt p.gdtrSlot), .env (.reload kernelCodeSelector kernelDataSelector)]

/-- The gate of an exception vector (rule R125). -/
def exceptionGate (p : Placement) (handlers : HandlerTable) (v : Fin Config.exceptionVectors) : Instr :=
  intgate32 (p.idtBase + BitVec.ofNat 32 (8 * v.val)) (handlers v) kernelCodeSelector

/-- Step 3 (rule R184). -/
def bootInterruptTable (p : Placement) (handlers : HandlerTable) : List ProgItem :=
  (List.finRange Config.exceptionVectors).map (fun v => ProgItem.command (exceptionGate p handlers v)) ++
    [.command (.tdescEncode p.idtrSlot (tableDescriptorSource p.idtBase Config.idtEntries)),
     .env (.lidt p.idtrSlot)]

/-- The boot program (rules R182 to R186); step 4 is its return, with no `env.sti` (rule R186). -/
def bootProgram (p : Placement) (handlers : HandlerTable) : List ProgItem :=
  bootDisableInterrupts ++ bootSegmentTable p ++ bootInterruptTable p handlers

/-- Eight zero bytes: the null segment entry. -/
def zeroSlot : Slot := ⟨0#8, 0#8, 0#8, 0#8, 0#8, 0#8, 0#8, 0#8⟩

/-- The bytes of an exception vector's gate with the handler `h` (rules R125 and R187). -/
def exceptionSlot (h : Word) : Slot :=
  ⟨byteOf h 0, byteOf h 1, 0x08#8, 0x00#8, 0x00#8, 0x8E#8, byteOf h 2, byteOf h 3⟩

/-- The slot holds the bytes `D`, the accessed bit left open (rule R187, last paragraph). -/
def slotIsButForAccessed (B D : Slot) : Bool :=
  { B with b5 := B.b5 ||| 0x01#8 } == { D with b5 := D.b5 ||| 0x01#8 }

/-- The end state of the boot program (rule R187), the same under both values of `SEG_B6_RSVD`; the accessed bits of the
segment table are left open as its last paragraph says, for the two descriptors. The null entry is asked to be zero as rule
R187 lists it, although rule R30 lets the CPU set bit 0 of its byte 5 too: which of the two holds of that bit is not settled
by the spec. DESIGN CHOICE, log 23. -/
def bootEndState (p : Placement) (handlers : HandlerTable) (s : State) : Bool :=
  s.fault == none && s.IF == 0#1 &&
    s.readSlot p.gdtBase == zeroSlot &&
    slotIsButForAccessed (s.readSlot (p.gdtBase + 8#32)) kernelCodeSlot &&
    slotIsButForAccessed (s.readSlot (p.gdtBase + 16#32)) kernelDataSlot &&
    ((List.finRange Config.exceptionVectors).all fun v =>
      s.readSlot (p.idtBase + BitVec.ofNat 32 (8 * v.val)) == exceptionSlot (handlers v)) &&
    zeroBytes s (p.idtBase + 256#32) 1792 &&
    tdescFields (s.readSlot p.gdtrSlot) == tableDescriptorSource p.gdtBase Config.gdtEntries &&
    tdescFields (s.readSlot p.idtrSlot) == tableDescriptorSource p.idtBase Config.idtEntries &&
    s.gdtr == some ⟨p.gdtBase, 0x0017#16⟩ && s.idtr == some ⟨p.idtBase, 0x07FF#16⟩ &&
    s.activeRegions ==
      AddrSet.insert (AddrSet.insert [] p.gdtBase.toNat (p.gdtBase.toNat + 23)) p.idtBase.toNat (p.idtBase.toNat + 2047)

/-- How the panic path ends in the model (rule R170): halt-permanently. The path itself is surrounding software
(rule R6). -/
def panicEnd : List ProgItem := [.env .haltPermanently]

/-- The text the panic path emits: the message terminated at its length (rule R170). Where the message holds a zero byte
before that length, or is shorter than it, the spec does not say what is emitted; the model stops at the first zero byte, and
at the message's own end. DESIGN CHOICE, log 25. -/
def panicText (message : List Byte) (length : Nat) : List Byte :=
  (message.take length).takeWhile fun b => b != 0x00#8

/-- The x86 names of the exception vectors, for orientation only (rule R188, general knowledge of the spec's author,
log 19); the source's enumeration is not used as a vector map (conflict C2). -/
def exceptionVectorNames : List String :=
  ["divide error", "debug", "NMI", "breakpoint", "overflow", "bound range", "invalid opcode",
   "device not available", "double fault", "coprocessor segment overrun", "invalid TSS",
   "segment not present", "stack fault", "general protection", "page fault", "reserved"] ++
  ["x87 floating-point", "alignment check", "machine check", "SIMD floating-point", "virtualization",
   "control protection", "reserved", "reserved", "reserved", "reserved", "reserved", "reserved",
   "hypervisor injection", "VMM communication", "security exception", "reserved"]

end Sys2Proof.Machine
end

