-- ==== Sys2Proof/Tests/Slice0.lean ====
section
/-! SUPPORT. The model's own tests: the checks of WellFormed.lean refuse ill-formed terms, words written out in the spec
decode to their commands, one or two steps per command, and for each obligation with hypotheses a state and operands that
meet them. Expected words and bytes are those of 95_test_vectors.md (named by its ids) or worked out by hand from the rule
named. -/

open Sys2Proof Sys2Proof.Machine

namespace Sys2Proof.Tests

/-! ### Helpers -/

/-- A launch state with `StorageRegion = 0x1000 .. 0x2FFF` (95_test_vectors.md, P1), a policy and a program. -/
def launch (policy : SegB6Rsvd) (program : List ProgItem) : State :=
  { State.reset with storageRegion := [⟨0x1000, 0x2FFF⟩], segB6Rsvd := policy, program := program }

/-- The launch state under `zero` with one word as its program. -/
def one (W : Command) : State := launch .zero [.word W]

/-- The 8 bytes at `a` are `0xFF`, every other byte 0. -/
def dirtyAt (a : Nat) : Memory := (List.range 8).map fun k => (a + k, 0xFF#8)

/-- The 8 bytes at `a` of a result; none where the step answers no next state. -/
def bytesAt (a : Nat) : StepResult → Option (List Byte)
  | .next t => some ((List.range 8).map fun k => t.mem.read (a + k))
  | _ => none

/-- The fault record and `pc` of a result; none where the step answers no next state. -/
def faultAndPc : StepResult → Option (Option ModelFault × Nat)
  | .next t => some (t.fault, t.pc)
  | _ => none

/-! ### WellFormed.lean: one ill-formed term for each check, which the check refuses (rule R75) -/

/-- `WF_seg`: limit `0x00100000` is 2^20 (vector S8). -/
theorem test_wf_seg_refuses_wide_limit :
    (SegSource.mk 0#32 0x00100000#32 1#1 0#2 0#1 0#1 1#1 0#1 1#1 1#1).wf = false := by decide

theorem test_wf_seg_takes_largest_limit :
    (SegSource.mk 0#32 0x000FFFFF#32 1#1 0#2 1#1 0#1 1#1 0#1 1#1 1#1).wf = true := by decide

/-- Entry 1 of the table the checks below refer to: the kernel code descriptor of rule R106. -/
def codeSlot : Slot := ⟨0xFF#8, 0xFF#8, 0x00#8, 0x00#8, 0x00#8, 0x9A#8, 0xCF#8, 0x00#8⟩

/-- Entry 2: the kernel data descriptor of rule R106. -/
def dataSlot : Slot := ⟨0xFF#8, 0xFF#8, 0x00#8, 0x00#8, 0x00#8, 0x92#8, 0xCF#8, 0x00#8⟩

/-- A gate source with kind `0xE`. -/
def gateWith (sel : Half) (s : BitVec 1) : GateSource := ⟨0x00100000#32, sel, 0xE#4, s, 0#2, 1#1⟩

theorem test_wf_gate_takes_kernel_gate : (gateWith 0x0008#16 0#1).wf [zeroSlot, codeSlot, dataSlot] = true := by decide

/-- The storage-segment flag of an interrupt gate must be 0 (vector G9). -/
theorem test_wf_gate_refuses_storage_flag :
    (gateWith 0x0008#16 1#1).storageFlagOk = false ∧ (gateWith 0x0008#16 1#1).wf [zeroSlot, codeSlot, dataSlot] = false :=
  by decide

/-- Selector bits 2:0 must be 0 (vector G12). -/
theorem test_wf_gate_refuses_selector_low_bits :
    (gateWith 0x000B#16 0#1).wf [zeroSlot, codeSlot, dataSlot] = false := by decide

theorem test_wf_gate_refuses_selector_past_table :
    (gateWith 0x0018#16 0#1).wf [zeroSlot, codeSlot, dataSlot] = false := by decide

theorem test_wf_gate_refuses_data_selector :
    (gateWith 0x0010#16 0#1).wf [zeroSlot, codeSlot, dataSlot] = false := by decide

/-- A code descriptor that is not present (vector S15). -/
theorem test_wf_gate_refuses_absent_code :
    (gateWith 0x0008#16 0#1).wf [zeroSlot, { codeSlot with b5 := 0x1A#8 }, dataSlot] = false := by decide

/-- A system descriptor: bit 4 of byte 5 is 0. -/
theorem test_wf_gate_refuses_system_descriptor :
    (gateWith 0x0008#16 0#1).wf [zeroSlot, { codeSlot with b5 := 0x8A#8 }, dataSlot] = false := by decide

/-- `WF_tdesc`: three entries take `0x0017`, not `0x0018`. -/
theorem test_wf_tdesc_refuses_size :
    (TdescSource.mk 0x1000#32 0x0018#16).wf 3 = false ∧ (TdescSource.mk 0x1000#32 0x0017#16).wf 3 = true := by decide

/-- The check of a command is that of its source. -/
theorem test_wf_instr_refuses :
    (Instr.segEncode 0x1008#32 ⟨0#32, 0x00100000#32, 1#1, 0#2, 0#1, 0#1, 1#1, 0#1, 1#1, 1#1⟩).wf [] 0 = false ∧
      (Instr.gateEncode 0x2000#32 (gateWith 0x0008#16 0#1)).wf [] 0 = false ∧
      (Instr.tdescEncode 0x3000#32 ⟨0#32, 0#16⟩).wf [] 0 = false := by decide

/-! ### Decoding: words written out in the spec -/

/-- Vector S6. -/
theorem test_decode_seg :
    decode 0x0000100812345678000ABCDE00820000#128 =
      .ok (.segEncode 0x1008#32 ⟨0x12345678#32, 0xABCDE#32, 1#1, 0#2, 0#1, 0#1, 1#1, 0#1, 0#1, 0#1⟩) := rfl

/-- Bit by bit from rule R65: `g`, `db`, `p`, `dpl` and `dc` set, the others 0 (`F1 = 0xC0`, `F0 = 0xE4`). -/
theorem test_decode_seg_bits :
    decode 0x0000100800000000000000009F000000#128 = .error .reservedBits ∧
    decode 0x000010080000000000000000C0E40000#128 =
      .ok (.segEncode 0x1008#32 ⟨0#32, 0#32, 1#1, 3#2, 0#1, 1#1, 0#1, 0#1, 1#1, 1#1⟩) := ⟨rfl, rfl⟩

/-- Vector G5. -/
theorem test_decode_gate :
    decode 0x00002000001012340000000800EF0001#128 =
      .ok (.gateEncode 0x2000#32 ⟨0x101234#32, 0x0008#16, 0xF#4, 0#1, 3#2, 1#1⟩) := rfl

/-- Vector G9: the storage-segment flag is bit 20. -/
theorem test_decode_gate_storage_flag :
    decode 0x000020000010000000000008009E0001#128 =
      .ok (.gateEncode 0x2000#32 ⟨0x100000#32, 0x0008#16, 0xE#4, 1#1, 0#2, 1#1⟩) := rfl

/-- Vector T5. -/
theorem test_decode_tdesc :
    decode 0x00003000123456780000ABCD00000002#128 =
      .ok (.tdescEncode 0x3000#32 ⟨0x12345678#32, 0xABCD#16⟩) := rfl

/-- Vectors F1, F2 and F3. -/
theorem test_decode_rejects_reserved :
    decode 0x0000100800000000000FFFFFC08A0003#128 = .error .reservedOperation ∧
    decode 0x0000100800000000000FFFFFC09A0000#128 = .error .reservedBits ∧
    decode 0x000020000010000000010008008E0001#128 = .error .reservedBits := ⟨rfl, rfl, rfl⟩

/-- Vectors S12, G5 and T5, encoded. -/
theorem test_encode_words :
    encode (.segEncode 0x1008#32 ⟨0x200000#32, 0xFFF#32, 1#1, 0#2, 0#1, 1#1, 1#1, 0#1, 0#1, 1#1⟩) =
        0x000010080020000000000FFF40860000#128 ∧
      encode (.gateEncode 0x2000#32 ⟨0x101234#32, 0x0008#16, 0xF#4, 0#1, 3#2, 1#1⟩) =
        0x00002000001012340000000800EF0001#128 ∧
      encode (.tdescEncode 0x3000#32 ⟨0x12345678#32, 0xABCD#16⟩) = 0x00003000123456780000ABCD00000002#128 := by decide

/-- The table's numbering; a number above 128 bits that is not a command word is refused, and its low bits are taken
where `nbits` says so. -/
theorem test_decodeTableWord :
    decodeTableWord 128 0x00003000123456780000ABCD00000002 = some (.tdescEncode 0x3000#32 ⟨0x12345678#32, 0xABCD#16⟩) ∧
      decodeTableWord 136 (2 ^ 128) = none ∧ decodeTableWord 128 3 = none ∧
      decodeTableWord 8 0x102 = some (.tdescEncode 0#32 ⟨0#32, 0#16⟩) := by decide

/-! ### One step of each command -/

/-- Vector S6. -/
theorem test_seg_distinct_bytes :
    bytesAt 0x1008 (step (one 0x0000100812345678000ABCDE00820000#128)) =
      some [0xDE#8, 0xBC#8, 0x78#8, 0x56#8, 0x34#8, 0x92#8, 0x0A#8, 0x12#8] := by decide

/-- Vectors S16 and S17: a dirty slot under `preserve` and under `zero`. -/
theorem test_seg_dirty_slot :
    bytesAt 0x1008 (exec (kcode 0x1008#32) { launch .preserve [] with mem := dirtyAt 0x1008 }) =
        some [0xFF#8, 0xFF#8, 0x00#8, 0x00#8, 0x00#8, 0x9A#8, 0xFF#8, 0x00#8] ∧
      bytesAt 0x1008 (exec (kcode 0x1008#32) { launch .zero [] with mem := dirtyAt 0x1008 }) =
        some [0xFF#8, 0xFF#8, 0x00#8, 0x00#8, 0x00#8, 0x9A#8, 0xCF#8, 0x00#8] := by decide

/-- Vector G3, over a dirty slot: byte 4 is 0 whatever the other bytes are. -/
theorem test_gate_all_ones :
    bytesAt 0x2000 (step { one 0x00002000FFFFFFFF0000FFFF00FF0001#128 with mem := dirtyAt 0x2000 }) =
      some [0xFF#8, 0xFF#8, 0xFF#8, 0xFF#8, 0x00#8, 0xFF#8, 0xFF#8, 0xFF#8] := by decide

/-- Vector G4: the offset is split across bytes 0, 1, 6 and 7. -/
theorem test_gate_offset_split :
    bytesAt 0x2000 (step (one 0x000020001234567800000008008E0001#128)) =
      some [0x78#8, 0x56#8, 0x08#8, 0x00#8, 0x00#8, 0x8E#8, 0x34#8, 0x12#8] := by decide

/-- Vector F12 on a dirty slot: bytes 6 and 7 keep their values. -/
theorem test_tdesc_keeps_last_bytes :
    bytesAt 0x2FF8 (step { one 0x00002FF8000010000000001700000002#128 with mem := dirtyAt 0x2FF8 }) =
      some [0x17#8, 0x00#8, 0x00#8, 0x10#8, 0x00#8, 0x00#8, 0xFF#8, 0xFF#8] := by decide

/-- The bytes of vector T5, at a slot of the helper's storage. -/
theorem test_tdesc_byte_order :
    bytesAt 0x2000 (exec (.tdescEncode 0x2000#32 ⟨0x12345678#32, 0xABCD#16⟩) (launch .zero [])) =
      some [0xCD#8, 0xAB#8, 0x78#8, 0x56#8, 0x34#8, 0x12#8, 0x00#8, 0x00#8] := by decide

/-! ### Faults and their order -/

/-- Vectors F7, F8 and F9: `IF` is tested before alignment and after the decoder. -/
theorem test_fault_order_interrupts :
    faultAndPc (step { one 0x0000100400000000000FFFFFC08A0000#128 with flags := 0x202#32 }) =
        some (some (.interruptsEnabled 0x0000100400000000000FFFFFC08A0000#128), 0) ∧
      faultAndPc (step { one 0x0000100800000000000FFFFFC08A0003#128 with flags := 0x202#32 }) =
        some (some (.reservedCommand 0x0000100800000000000FFFFFC08A0003#128), 0) := by decide

/-- Vectors F5, F6 and F10. -/
theorem test_fault_addresses :
    faultAndPc (step (one 0x0000100400000000000FFFFFC08A0000#128)) = some (some (.slotMisaligned 0x1004#32), 0) ∧
      faultAndPc (step (one 0x0000500000000000000FFFFFC08A0000#128)) = some (some (.slotOutOfStorage 0x5000#32), 0) ∧
      faultAndPc (step { one 0x0000101000000000000FFFFFC0820000#128 with activeRegions := [⟨0x1000, 0x1017⟩] }) =
        some (some (.writeToActiveTable 0x1010#32), 0) := by decide

/-- Vector F11: the slot right behind an active table is accepted; bytes of S4. -/
theorem test_slot_behind_active_table :
    bytesAt 0x1018 (step { one 0x00001018000000000000000000000000#128 with activeRegions := [⟨0x1000, 0x1017⟩] }) =
      some [0x00#8, 0x00#8, 0x00#8, 0x00#8, 0x00#8, 0x10#8, 0x00#8, 0x00#8] := by decide

/-- Rule R161: the fault codes. -/
theorem test_fault_codes :
    (ModelFault.reservedCommand 0#128).code = 1 ∧ (ModelFault.interruptsEnabled 0#128).code = 2 ∧
      (ModelFault.slotMisaligned 0#32).code = 3 ∧ (ModelFault.slotOutOfStorage 0#32).code = 4 ∧
      (ModelFault.writeToActiveTable 0#32).code = 5 := by decide

/-! ### The assembler (rules R76 to R78) -/

theorem test_assemble_symbol :
    (assembleLine [("GDT".toList, 0x1000)] "kcode GDT+8 ; null is entry 0".toList).toOption =
      some (some (.command (kcode 0x1008#32))) := by decide

/-- "A value that does not fit its port width is an assembly error, not a truncation". -/
theorem test_assemble_refuses_wide_value :
    (assembleLine [] "tdescenc 0x3000, base=0, size1=0x10000".toList).toOption = none ∧
      (assembleLine [] "tabdesc 0x3000, 0, 8193".toList).toOption = none := by decide

/-- Operands in any order, `s` defaulting to 0; the line of rule R77's `intgate32`. -/
theorem test_assemble_gate :
    (assembleLine [] "gateenc 0x2000, p=1, dpl=0, kind=0xE, sel=8, off=0x100000".toList).toOption =
      some (some (.command (intgate32 0x2000#32 0x100000#32 0x0008#16))) := by decide

/-- Rows 1 to 5 of program P1, words and environment steps as that table gives them. -/
theorem test_boot_segment_table :
    bootSegmentTable ⟨0x1000#32, 0x2000#32, 0x1800#32, 0x2800#32⟩ =
      [.word 0x0000100800000000000FFFFFC08A0000#128, .word 0x0000101000000000000FFFFFC0820000#128,
       .word 0x00001800000010000000001700000002#128, .env (.lgdt 0x1800#32), .env (.reload 0x0008#16 0x0010#16)] := by
  decide

/-- Rule R8 and D13: the placement of program P1 is well-formed, one whose segment table wraps past the last address is not. -/
theorem test_placement :
    (Placement.mk 0x1000#32 0x2000#32 0x1800#32 0x2800#32).wf [⟨0, 0xFFFFFFFF⟩] = true ∧
      (Placement.mk 0xFFFFFFF8#32 0x2000#32 0x1800#32 0x2800#32).wf [⟨0, 0xFFFFFFFF⟩] = false := by decide +kernel

/-- Rule R187: the kernel code slot of the end state is `FF FF 00 00 00 9A CF 00`, its accessed bit open and bits 5:4 of byte
6 not. -/
theorem test_end_state_kernel_code :
    slotIsButForAccessed kernelCodeSlot kernelCodeSlot = true ∧
      slotIsButForAccessed { kernelCodeSlot with b5 := 0x9B#8 } kernelCodeSlot = true ∧
      slotIsButForAccessed { kernelCodeSlot with b6 := 0xFF#8 } kernelCodeSlot = false := by decide

/-! ### Witnesses: states and operands that meet the hypotheses of the obligations -/

/-- Operands that meet both hypotheses of every statement about what one command writes or leaves (the three of R70 to R72,
ExceptionGateHasItsBytes, SegmentFieldsRoundTrip, GateFieldsRoundTrip, SegmentFieldsAreIndependent,
KernelCodeSlotMeetsTheGatePredicate): the first and the last slot of the storage, for both lengths of footprint. -/
theorem test_witness_admits :
    (launch .zero []).mem.wf = true ∧ (launch .zero []).admits 0x1000#32 8 ∧ (launch .zero []).admits 0x2FF8#32 8 ∧
      (launch .zero []).admits 0x2FF8#32 6 :=
  ⟨rfl, ⟨by decide, by decide, by decide, by decide⟩, ⟨by decide, by decide, by decide, by decide⟩,
    ⟨by decide, by decide, by decide, by decide⟩⟩

/-- Both policies of `SEG_B6_RSVD`, the two cases of byte 6. -/
theorem test_witness_SegEncodeWritesTheSegmentDescriptor :
    (launch .zero []).admits 0x2FF8#32 8 ∧ (launch .zero []).segB6Rsvd = .zero ∧
      (launch .preserve []).admits 0x2FF8#32 8 ∧ (launch .preserve []).segB6Rsvd = .preserve :=
  ⟨test_witness_admits.2.2.1, rfl, ⟨by decide, by decide, by decide, by decide⟩, rfl⟩

/-- Every command meets the hypotheses of the statements over all of `Instr`, each at the storage's last slot. -/
theorem test_witness_RepeatedCommandLeavesStorageIdentical :
    let i : Instr := .segEncode 0x2FF8#32 kernelCodeSource
    let j : Instr := .gateEncode 0x2FF8#32 (gateWith 8#16 0#1)
    let l : Instr := .tdescEncode 0x2FF8#32 ⟨0#32, 0x17#16⟩
    (launch .zero []).admits i.dst (footprintOf i) ∧ (launch .zero []).admits j.dst (footprintOf j) ∧
      (launch .zero []).admits l.dst (footprintOf l) :=
  ⟨test_witness_admits.2.2.1, test_witness_admits.2.2.1, test_witness_admits.2.2.2⟩

theorem test_witness_EncodeOfDecodeIsTheWord :
    decode 0x00002000001012340000000800EF0001#128 =
      .ok (.gateEncode 0x2000#32 ⟨0x101234#32, 0x0008#16, 0xF#4, 0#1, 3#2, 1#1⟩) := rfl

/-- A word of each kind: reserved operation, reserved bits of each family, and a command; and two limits that differ in
bit 20 only. -/
theorem test_witness_ReservedWordsRaiseReservedCommand :
    (one 3#128).issues [] (.word 3#128) ∧ wordIsReserved 3#128 ∧ wordIsReserved 4#128 ∧
      wordIsReserved 0x100000#128 ∧ wordIsReserved 0x01000001#128 ∧ wordIsReserved 0x00010002#128 ∧
      ¬ wordIsReserved 0#128 ∧ (one 3#128).admits 0x1008#32 8 ∧
      (0x100000#32).extractLsb' 0 20 = (0#32).extractLsb' 0 20 := by
  refine ⟨⟨⟨rfl, rfl⟩, .inl ⟨rfl, rfl⟩, rfl, rfl⟩, ?_⟩
  refine ⟨by unfold wordIsReserved; decide, by unfold wordIsReserved; decide, by unfold wordIsReserved; decide,
    by unfold wordIsReserved; decide, by unfold wordIsReserved; decide, by unfold wordIsReserved; decide,
    ⟨by decide, by decide, by decide, by decide⟩, by decide⟩

/-- The last slot of the storage is zero and is admitted. -/
theorem test_witness_KernelDescriptorsHaveTheirBytes :
    (launch .preserve []).mem.wf = true ∧ (launch .preserve []).admits 0x2FF8#32 8 ∧
      (launch .preserve []).readSlot 0x2FF8#32 =
        ⟨0x00#8, 0x00#8, 0x00#8, 0x00#8, 0x00#8, 0x00#8, 0x00#8, 0x00#8⟩ :=
  ⟨rfl, ⟨by decide, by decide, by decide, by decide⟩, by decide⟩

/-- A next state of the command on a dirty slot, taken as the second state. -/
theorem test_witness_SegEncodeIsIdempotent :
    let s : State := { launch .preserve [] with mem := dirtyAt 0x2FF8 }
    s.mem.wf = true ∧ s.admits 0x2FF8#32 8 ∧
      ∃ t, exec (kcode 0x2FF8#32) s = .next t ∧ t.mem.wf = true ∧ t.admits 0x2FF8#32 8 ∧ t.segB6Rsvd = s.segB6Rsvd ∧
        t.readSlot 0x2FF8#32 = t.readSlot 0x2FF8#32 :=
  ⟨by decide, ⟨by decide, by decide, by decide, by decide⟩, _, rfl, by decide,
    ⟨by decide, by decide, by decide, by decide⟩, rfl, rfl⟩

/-- A next state of the command, and another state whose slot holds the same bytes and that admits it again. -/
theorem test_witness_TableDescriptorFieldsRoundTrip :
    ∃ t, exec (.tdescEncode 0x2FF8#32 ⟨0x1000#32, 0x17#16⟩) (launch .zero []) = .next t ∧ t.mem.wf = true ∧
      t.admits 0x2FF8#32 6 ∧ t.readSlot 0x2FF8#32 = t.readSlot 0x2FF8#32 :=
  ⟨_, rfl, by decide, ⟨by decide, by decide, by decide, by decide⟩, rfl⟩

/-- Two states that admit both footprints at the last slot, whose old bytes differ but agree in bits 5:4 of byte 6; and a
state whose policy is `zero`. -/
theorem test_witness_ResultsDependOnOldBytesOnlyAsStated :
    let s : State := launch .preserve []
    let u : State := { launch .preserve [] with mem := [(0x2FFE, 0xCF#8)] }
    s.mem.wf = true ∧ s.admits 0x2FF8#32 8 ∧ s.admits 0x2FF8#32 6 ∧ u.mem.wf = true ∧ u.admits 0x2FF8#32 8 ∧
      u.admits 0x2FF8#32 6 ∧ u.segB6Rsvd = s.segB6Rsvd ∧ u.readSlot 0x2FF8#32 ≠ s.readSlot 0x2FF8#32 ∧
      (s.mem.read ((0x2FF8#32).toNat + 6)).extractLsb' 4 2 = (u.mem.read ((0x2FF8#32).toNat + 6)).extractLsb' 4 2 ∧
      (launch .zero []).segB6Rsvd = .zero :=
  ⟨rfl, ⟨by decide, by decide, by decide, by decide⟩, ⟨by decide, by decide, by decide, by decide⟩, by decide,
    ⟨by decide, by decide, by decide, by decide⟩, ⟨by decide, by decide, by decide, by decide⟩, rfl, by decide,
    by decide, rfl⟩

/-- Sources that differ in one input, the limit above its low 20 bits too. -/
theorem test_witness_SegmentFieldsAreIndependent :
    kernelDataSource = { kernelCodeSource with x := kernelDataSource.x } ∧ kernelDataSource.x ≠ kernelCodeSource.x ∧
      ({ kernelCodeSource with limit := 0#32 } : SegSource).limit.extractLsb' 0 20 ≠
        kernelCodeSource.limit.extractLsb' 0 20 := by decide

/-- A state that issues the word `W`, with the items that admission reads. -/
def probe (W : Command) (flags : BitVec 32) (storage active : AddrSet) : State :=
  { launch .zero [.word W] with flags := flags, storageRegion := storage, activeRegions := active }

theorem probe_issues (W : Command) (flags : BitVec 32) (storage active : AddrSet) :
    (probe W flags storage active).issues [] (.word W) := ⟨⟨rfl, rfl⟩, .inl ⟨rfl, rfl⟩, rfl, rfl⟩

/-- SEG_ENCODE at `0x2FF8`, all ports 0 (rule R65). -/
def segWord : Command := 0x00002FF8000000000000000000000000#128

/-- TDESC_ENCODE at `0x2FF8`, all ports 0 (rule R67). -/
def tdescWord : Command := 0x00002FF8000000000000000000000002#128

/-- The clauses of rule R162, each on a state that `probe_issues` shows to issue its word: no row; `IF = 1`; a `dst` one past
a slot; a footprint whose first byte alone, and one whose last byte alone, is outside the storage. -/
theorem test_witness_FirstFailingTestRaisesItsFault :
    (∀ r ∈ opcodeTable, 3#128 &&& r.mask ≠ r.pattern) ∧
    (segWord &&& segRow.mask = segRow.pattern ∧ segWord.extractLsb' 96 32 = 0x2FF8#32) ∧
    (tdescWord &&& tdescRow.mask = tdescRow.pattern ∧ tdescWord.extractLsb' 96 32 = 0x2FF8#32) ∧
    (probe segWord 0x200#32 [] []).IF = 1#1 ∧ (probe segWord 0xFFFFFDFF#32 [] []).IF = 0#1 ∧
    ((0x00002FF9000000000000000000000000#128).extractLsb' 96 32).extractLsb' 0 3 ≠ 0#3 ∧
    (0x2FF8#32).extractLsb' 0 3 = 0#3 ∧
    (∃ k, k < 8 ∧ (probe segWord 0#32 [⟨0x2FF9, 0x2FFF⟩] []).storageRegion.contains ((0x2FF8#32).toNat + k) = false) ∧
    (∃ k, k < 6 ∧ (probe tdescWord 0#32 [⟨0x1000, 0x2FFC⟩] []).storageRegion.contains ((0x2FF8#32).toNat + k) = false) :=
  ⟨by decide, by decide, by decide, by decide, by decide, by decide, by decide, ⟨0, by decide⟩, ⟨5, by decide⟩⟩

/-- The last two clauses: the footprint's first byte alone, and its last byte alone, is active; the storage ends with the
footprint; and the active spans stop right before it and start right behind it. -/
theorem test_witness_FirstFailingTestRaisesItsFault_active :
    (∀ k, k < 6 → (probe tdescWord 0#32 [⟨0x2FF8, 0x2FFD⟩] []).storageRegion.contains ((0x2FF8#32).toNat + k) = true) ∧
    (∀ k, k < 8 → (probe segWord 0#32 [⟨0x2FF8, 0x2FFF⟩] []).storageRegion.contains ((0x2FF8#32).toNat + k) = true) ∧
    (∃ k, k < 8 ∧ (probe segWord 0#32 [⟨0x2FF8, 0x2FFF⟩] [⟨0x2FF0, 0x2FF8⟩]).activeRegions.contains
      ((0x2FF8#32).toNat + k) = true) ∧
    (∃ k, k < 6 ∧ (probe tdescWord 0#32 [⟨0x2FF8, 0x2FFF⟩] [⟨0x2FFD, 0x2FFF⟩]).activeRegions.contains
      ((0x2FF8#32).toNat + k) = true) ∧
    (∀ k, k < 6 → (probe tdescWord 0#32 [⟨0x2FF8, 0x2FFF⟩] [⟨0x2FF0, 0x2FF7⟩, ⟨0x2FFE, 0x2FFF⟩]).activeRegions.contains
      ((0x2FF8#32).toNat + k) = false) ∧
    (∀ k, k < 8 → (probe segWord 0#32 [⟨0x2FF8, 0x2FFF⟩] [⟨0x2FF0, 0x2FF7⟩, ⟨0x3000, 0x3007⟩]).activeRegions.contains
      ((0x2FF8#32).toNat + k) = false) :=
  ⟨by decide, by decide, ⟨0, by decide⟩, ⟨5, by decide⟩, by decide, by decide⟩

theorem test_witness_CommandWithInterruptsEnabledFaults :
    ({ launch .zero [] with flags := 0x202#32 } : State).IF = 1#1 := by decide

/-- One active byte, the footprint's last. -/
theorem test_witness_CommandIntoActiveTableFaults :
    let s : State := { launch .zero [] with activeRegions := [⟨0x1017, 0x1017⟩] }
    s.IF = 0#1 ∧ (kcode 0x1010#32).dst.toNat % 8 = 0 ∧
      (∀ k, k < footprintOf (kcode 0x1010#32) → s.storageRegion.contains ((kcode 0x1010#32).dst.toNat + k) = true) ∧
      (∃ k, k < footprintOf (kcode 0x1010#32) ∧ s.activeRegions.contains ((kcode 0x1010#32).dst.toNat + k) = true) :=
  ⟨by decide, by decide, by decide, ⟨7, by decide⟩⟩

/-- A step that faults, from a state without a fault. -/
theorem test_witness_FaultsArePreciseAndFinal :
    (one 3#128).fault = none ∧ ∃ t, step (one 3#128) = .next t ∧ t.fault = some (.reservedCommand 3#128) :=
  ⟨rfl, _, rfl, rfl⟩

theorem test_witness_StepRunsTheDecodedCommand :
    (one 0x00003000123456780000ABCD00000002#128).issues [] (.word 0x00003000123456780000ABCD00000002#128) ∧
      decode 0x00003000123456780000ABCD00000002#128 = .ok (.tdescEncode 0x3000#32 ⟨0x12345678#32, 0xABCD#16⟩) :=
  ⟨⟨⟨rfl, rfl⟩, .inl ⟨rfl, rfl⟩, rfl, rfl⟩, rfl⟩

theorem test_witness_PlacedWordIsRunNext :
    decodeTableWord 128 0x00003000123456780000ABCD00000002 =
      some (.tdescEncode 0x3000#32 ⟨0x12345678#32, 0xABCD#16⟩) := by decide

/-- A completing step, for the statements about every step that answers a next state (LaunchParametersAreNeverWritten and
OnlyThePrimitivesWriteFlags too). -/
theorem test_witness_ProgramIndexAdvancesByOneOrStays :
    ∃ t, step (launch .zero [.env .sti]) = .next t ∧ t.pc = 1 ∧ t.IF = 1#1 := ⟨_, rfl, by decide, by decide⟩

/-- More steps than are left in a one-word program, whose one step does answer a next state. -/
theorem test_witness_EveryRunEnds :
    (one 0x1008#128).program.length - (one 0x1008#128).pc + (one 0x1008#128).turns.length < 2 ∧
      ∃ t, step (one 0x1008#128) = .next t := ⟨by decide, _, rfl⟩

/-- The primitives, each issued by a one-item program. -/
theorem test_witness_CpuPrimitivesHaveTheirEffects (e : EnvStep) : (launch .zero [.env e]).issues [] (.env e) :=
  ⟨⟨rfl, rfl⟩, .inl ⟨rfl, rfl⟩, rfl, rfl⟩

/-- The storage after rows 1 to 3 of program P1, each listed byte written out. -/
def builtSegmentTable : Memory :=
  [(0x1008, 0xFF#8), (0x1009, 0xFF#8), (0x100D, 0x9A#8), (0x100E, 0xCF#8), (0x1010, 0xFF#8), (0x1011, 0xFF#8),
   (0x1015, 0x92#8), (0x1016, 0xCF#8), (0x1800, 0x17#8), (0x1803, 0x10#8)]

/-- The state in which program P1 issues its segment-table load, with a program of two items. -/
def beforeLgdt : State :=
  { launch .zero [.env (.lgdt 0x1800#32), .env (.reload 0x0008#16 0x0010#16)] with mem := builtSegmentTable }

/-- The record and the table of `beforeLgdt` as the statement asks for them, with a byte in the null entry (rule R192). -/
theorem test_witness_SegmentTableLoadActivatesTheTable :
    let s : State := { beforeLgdt with mem := (0x1007, 0x01#8) :: builtSegmentTable }
    s.issues [] (.env (.lgdt 0x1800#32)) ∧ s.activeRegions.wf = true ∧
      readTableDescriptor 0x1800#32 s = ⟨0x1000#32, 0x0017#16⟩ ∧
      (0x1000#32).toNat + (0x0017#16).toNat ≤ 0xFFFFFFFF ∧
      s.segmentTableLoadable 0x1800#32 ⟨0x1000#32, 0x0017#16⟩ ∧ s.readSlot 0x1000#32 ≠ zeroSlot :=
  ⟨⟨⟨rfl, rfl⟩, .inl ⟨rfl, rfl⟩, rfl, rfl⟩, rfl, by decide, by decide,
    ⟨⟨by decide, by decide⟩, ⟨by decide, by decide⟩, rfl, by unfold slotsAgreeOutside; decide,
      by unfold slotsAgreeOutside; decide⟩, by decide⟩

/-- The load of program P1's row 4; the reload that follows it; and a command in the reload's place. -/
theorem test_witness_OnlyReloadFollowsTheSegmentTableLoad :
    (∃ t, step beforeLgdt = .next t ∧ t.gdtr = some ⟨0x1000#32, 0x0017#16⟩ ∧ t.activeRegions = [⟨0x1000, 0x1017⟩] ∧
      t.reloadDue = true ∧ t.enabled ∧ t.programMoves [] ∧
      t.program[t.pc]? = some (.env (.reload 0x0008#16 0x0010#16))) ∧
    (let s : State := { one 0x1008#128 with reloadDue := true }
     s.enabled ∧ s.programMoves [] ∧ s.program[s.pc]? = some (.word 0x1008#128) ∧
      ∀ cs ds, ProgItem.word 0x1008#128 ≠ .env (.reload cs ds)) :=
  ⟨⟨_, rfl, by decide, by decide, rfl, ⟨rfl, rfl⟩, .inl ⟨rfl, rfl⟩, rfl⟩, ⟨rfl, rfl⟩, .inl ⟨rfl, rfl⟩, rfl,
    fun _ _ h => by cases h⟩

/-- An interrupt table of 32 gates with handler 0 at `0x2000`, and its table descriptor at `0x2800`. The selectors are
`0x0010`, not the kernel code selector (rule R199), and slot 255 holds a byte (rule R192). -/
def beforeLidt : State :=
  { launch .zero [.env (.lidt 0x2800#32)] with
    mem := ((List.range 32).flatMap fun v => [(0x2000 + 8 * v + 2, 0x10#8), (0x2000 + 8 * v + 5, 0x8E#8)]) ++
      [(0x27FF, 0x01#8), (0x2800, 0xFF#8), (0x2801, 0x07#8), (0x2803, 0x20#8)] }

theorem test_witness_InterruptTableLoadActivatesTheTable :
    beforeLidt.issues [] (.env (.lidt 0x2800#32)) ∧ beforeLidt.activeRegions.wf = true ∧
      readTableDescriptor 0x2800#32 beforeLidt = ⟨0x2000#32, 0x07FF#16⟩ ∧
      (0x2000#32).toNat + (0x07FF#16).toNat ≤ 0xFFFFFFFF ∧
      beforeLidt.interruptTableLoadable 0x2800#32 ⟨0x2000#32, 0x07FF#16⟩ :=
  ⟨⟨⟨rfl, rfl⟩, .inl ⟨rfl, rfl⟩, rfl, rfl⟩, rfl, by decide, by decide,
    ⟨⟨by decide, by decide⟩, ⟨by decide, by decide +kernel⟩, rfl, by decide +kernel⟩⟩

/-- Why a step is refused; none where it is not. -/
def refusalOf : StepResult → Option Refusal
  | .refused r => some r
  | _ => none

/-- A state that issues one table load, over a storage and a `StorageRegion`. -/
def loadState (e : EnvStep) (m : Memory) (storage : AddrSet) : State :=
  { launch .zero [.env e] with mem := m, storageRegion := storage }

theorem loadState_issues (e : EnvStep) (m : Memory) (storage : AddrSet) :
    (loadState e m storage).issues [] (.env e) := ⟨⟨rfl, rfl⟩, .inl ⟨rfl, rfl⟩, rfl, rfl⟩

/-- A table at the last address: base `0xFFFFFFFF` with size-minus-one 0 ends there and has no table's size, and with
size-minus-one 1 it passes it. `loadState_issues` shows that each state issues its load. -/
theorem test_witness_MalformedTablesAreRefused :
    let atEnd : Memory := [(0x1802, 0xFF#8), (0x1803, 0xFF#8), (0x1804, 0xFF#8), (0x1805, 0xFF#8)]
    let past : Memory := (0x1800, 0x01#8) :: atEnd
    refusalOf (step (loadState (.lgdt 0x1800#32) atEnd [⟨0, 0xFFFFFFFF⟩])) =
        some (.malformedTableDescriptor 0x1800#32) ∧
      refusalOf (step (loadState (.lidt 0x1800#32) past [⟨0, 0xFFFFFFFF⟩])) =
        some (.tablePassesAddressSpace 0x1800#32) := by decide

/-- Program P1's segment table with one condition missed: the code descriptor not executable, the data descriptor not
writable, a base four bytes off, a size of 16 bytes; the table's last byte, and the record's last byte, outside
`StorageRegion`; and a record that is not aligned. -/
theorem test_witness_MalformedTablesAreRefused_segment :
    let all : AddrSet := [⟨0x1000, 0x2FFF⟩]
    let m := builtSegmentTable
    ([(0x1800#32, m.write 0x100D 0x92#8, all), (0x1800#32, m.write 0x1015 0x90#8, all),
      (0x1800#32, m.write 0x1802 0x04#8, all), (0x1800#32, m.write 0x1800 0x0F#8, all),
      (0x1800#32, m, [⟨0x1000, 0x1016⟩, ⟨0x1800, 0x1FFF⟩]), (0x1800#32, m, [⟨0x1000, 0x1804⟩]),
      (0x1804#32, (m.write 0x1804 0x17#8).write 0x1807 0x10#8, all)].all fun (slot, m, storage) =>
        refusalOf (step (loadState (.lgdt slot) m storage)) == some (.malformedTableDescriptor slot)) = true := by decide

/-- The interrupt table of `beforeLidt` with one condition missed: the last exception gate not present, byte 4 of the first
not zero, and a size of one byte less. -/
theorem test_witness_MalformedTablesAreRefused_interrupt :
    ([beforeLidt.mem.write 0x20FD 0x0E#8, beforeLidt.mem.write 0x2004 0x01#8,
      beforeLidt.mem.write 0x2800 0xFE#8].all fun m =>
        refusalOf (step (loadState (.lidt 0x2800#32) m [⟨0x1000, 0x2FFF⟩])) ==
          some (.malformedTableDescriptor 0x2800#32)) = true := by decide +kernel

/-- The interrupt-table base register of a result; none where it is unloaded or the step answers no next state. -/
def idtrOf : StepResult → Option TableReg
  | .next t => t.idtr
  | _ => none

/-- Rules R192 and R199: the load of `beforeLidt` completes. -/
theorem test_lidt_takes_other_selectors : idtrOf (step beforeLidt) = some ⟨0x2000#32, 0x07FF#16⟩ := by decide +kernel

/-- The CPU's turn on byte 5 of the last slot of an active table, and on the byte behind it. -/
theorem test_witness_AccessedBitWriteSetsOneBit :
    let s : State := { launch .zero [] with
      mem := builtSegmentTable, activeRegions := [⟨0x1000, 0x1017⟩], turns := [.setAccessed 0x1015#32] }
    s.enabled ∧ (0x1015#32).toNat = 0x1010 + 5 ∧ 0x1010 % 8 = 0 ∧
      (∀ k, k < 8 → s.activeRegions.contains (0x1010 + k) = true) ∧ s.mem.wf = true ∧
      (0x1016#32).toNat % 8 ≠ 5 ∧
      (∃ k, k < 8 ∧ s.activeRegions.contains ((0x101D#32).toNat - 5 + k) = false) ∧
      bytesAt 0x1010 (step s) = some [0xFF#8, 0xFF#8, 0x00#8, 0x00#8, 0x00#8, 0x93#8, 0xCF#8, 0x00#8] :=
  ⟨⟨rfl, rfl⟩, by decide, by decide, by decide, by decide, by decide, ⟨0, by decide⟩, by decide⟩

/-- A state with a loaded, active table and a due reload meets the invariant, and its step answers a next state; byte
`0x1017` is active (ActiveTablesAreReadOnlyButForTheAccessedBit, OnlyTheLoaderWritesItsRegisters). -/
theorem test_witness_StepKeepsTheInvariant :
    let s : State := { launch .zero [.env (.reload 0x0008#16 0x0010#16)] with
      mem := builtSegmentTable, activeRegions := [⟨0x1000, 0x1017⟩], gdtr := some ⟨0x1000#32, 0x0017#16⟩,
      reloadDue := true }
    s.Inv ∧ (∃ t, step s = .next t) ∧ s.activeRegions.contains 0x1017 = true := by
  refine ⟨⟨by decide, by decide, by decide, fun r h => ?_, fun r h => ?_, fun _ => ?_, fun h => ?_, by decide, fun h => ?_⟩,
    ⟨_, rfl⟩, by decide⟩
  · cases h
    refine ⟨by decide, fun a h => ?_⟩
    obtain ⟨h1, h2⟩ := h
    have h1' : 0x1000 ≤ a := h1
    have h2' : a ≤ 0x1017 := h2
    simp [AddrSet.contains, Span.contains, h1', h2']
  · cases h
  · exact Option.some_ne_none _
  · cases h
  · exact absurd rfl h

/-- A step that changes a byte. -/
theorem test_witness_OnlyAdmittedBytesChange :
    ∃ t, step (one 0x0000100812345678000ABCDE00820000#128) = .next t ∧
      t.mem.read 0x1008 ≠ (one 0x0000100812345678000ABCDE00820000#128).mem.read 0x1008 := ⟨_, rfl, by decide⟩

/-- The launch state with a fault record or a halt meets the invariant, as long as `pc` is short of the end in a halt and
`IF = 0`. -/
theorem launch_inv (program : List ProgItem) (f : Option ModelFault) (h : HaltState)
    (hh : h ≠ .running → 0 < program.length) :
    ({ launch .zero program with fault := f, halt := h } : State).Inv := by
  have off : (launch .zero program).IF = 0#1 := show (0x00000002#32).extractLsb' 9 1 = 0#1 by decide
  refine ⟨rfl, rfl, rfl, ?_, ?_, ?_, fun _ => off, Nat.zero_le _, hh⟩
  · intro r hr
    cases hr
  · intro r hr
    cases hr
  · intro hr
    cases hr

/-- A successful end on the program's turn, a failure of each kind and a stuck run, each in a state that meets the
invariant. -/
theorem test_witness_StoppedRunsHaveTheOutcomesOfTheSpec :
    let ended : State := { launch .zero [] with fault := none, halt := .running }
    let faulty : State := { launch .zero [.word 3#128] with fault := some (.reservedCommand 3#128), halt := .running }
    let halted : State := { launch .zero [.env .haltPermanently] with fault := none, halt := .permanently }
    let stuck : State := { launch .zero [.env .haltUntilInterrupt] with fault := none, halt := .untilInterrupt }
    (ended.Inv ∧ ended.succeeded ∧ ended.programMoves []) ∧ (faulty.Inv ∧ faulty.failed) ∧
      (halted.Inv ∧ halted.failed) ∧ (stuck.Inv ∧ stuck.stuck) :=
  ⟨⟨launch_inv _ _ _ fun h => absurd rfl h, ⟨rfl, rfl⟩, .inl ⟨rfl, rfl⟩⟩,
    ⟨launch_inv _ _ _ fun h => absurd rfl h, .inl (Option.some_ne_none _)⟩,
    ⟨launch_inv _ _ _ fun _ => by decide, .inr rfl⟩, ⟨launch_inv _ _ _ fun _ => by decide, rfl⟩⟩

theorem test_witness_AssembledWordsDecode :
    (assemble [] "tdescenc 0x3000, base=0x12345678, size1=0xABCD".toList).toOption =
      some [.word 0x00003000123456780000ABCD00000002#128] := by decide

/-- The operands of a `segenc` line with `a` left out; the limit at its port's largest value. -/
theorem test_witness_AssembledSegmentOperandsAreTheValuesWritten :
    (segOperands ["base=0".toList, "limit=0xFFFFFFFF".toList, "p=1".toList, "dpl=3".toList, "x=1".toList, "dc=0".toList,
        "rw=1".toList, "g=1".toList, "db=1".toList]).toOption =
      some ⟨0#32, 0xFFFFFFFF#32, 1#1, 3#2, 1#1, 0#1, 1#1, 0#1, 1#1, 1#1⟩ := by decide

end Sys2Proof.Tests
end

section
/-! SUPPORT. The launch parameters, `StorageRegion`, `SEG_B6_RSVD` and the program, are read-only to every step (spec rules
R8, R20 and R22). -/

namespace Sys2Proof.Machine

open Sys2Proof

/-- No environment step of a program writes a launch parameter: each writes registers of its own (rules R166 and R167). -/
theorem execEnv_launchParameters {e : EnvStep} {s t : State} (h : execEnv e s = .next t) :
    t.storageRegion = s.storageRegion ∧ t.segB6Rsvd = s.segB6Rsvd ∧ t.program = s.program := by
  rcases execEnv_cases h with ⟨-, rfl⟩ | ⟨-, rfl⟩ | ⟨-, rfl⟩ | ⟨-, rfl⟩ | ⟨-, rfl⟩ | ⟨_, _, -, rfl⟩ |
    ⟨_, _, -, -, rfl⟩ | ⟨_, _, -, -, rfl⟩ <;> exact ⟨rfl, rfl, rfl⟩

/-- Settles O27: a CPU turn, a fault and a completed command replace only `turns`, `mem`, `pc` and `fault`; an environment
step is `execEnv_launchParameters`. -/
theorem launchParametersAreNeverWritten : Obligations.LaunchParametersAreNeverWritten := by
  intro s t h
  obtain ⟨-, ⟨addr, rest, -, -, rfl⟩ | ⟨it, -, -, hitem⟩⟩ := step_next_cases h
  · exact ⟨rfl, rfl, rfl⟩
  · obtain ⟨W, f, -, rfl⟩ | ⟨W, i, -, -, -, rfl⟩ | ⟨e, -, he⟩ := hitem
    · exact ⟨rfl, rfl, rfl⟩
    · exact ⟨rfl, rfl, rfl⟩
    · have hkept := execEnv_launchParameters he
      exact hkept

end Sys2Proof.Machine
end

section
/-! SUPPORT. What a step does to one byte of storage, and what follows from it: an active table changes only in its accessed
bits, and any other byte only by an admitted command (spec rules R25, R30, R44, R45, R163 and R164). -/

namespace Sys2Proof.Machine

open Sys2Proof

/-- A byte of an admitted command's footprint is one the block may write (rule R162). -/
theorem State.admits_of_inFootprint {s : State} {dst : Word} {n a : Nat} (h : s.admits dst n)
    (ha : inFootprint dst n a) : s.storageRegion.contains a = true ∧ s.activeRegions.contains a = false := by
  obtain ⟨hlo, hhi⟩ := ha
  obtain ⟨k, rfl⟩ := Nat.exists_eq_add_of_le hlo
  exact ⟨h.inStorage k (by omega), h.notActive k (by omega)⟩

/-- A byte with its accessed bit set is not what an unlisted address reads as, so it is found in any list. -/
theorem or_one_ne_unlisted (v : Byte) : v ||| 0x01#8 ≠ Memory.unlisted := by
  intro h
  have hbit := congrArg (BitVec.getLsbD · 0) h
  simp [Memory.unlisted] at hbit

/-- The address of an allowed accessed-bit write is itself active (rule R30). -/
theorem contains_of_accessedAllowed {addr : Word} {s : State} (h : accessedAllowed addr s = true) :
    s.activeRegions.contains addr.toNat = true := by
  obtain ⟨hmod, hall⟩ := (accessedAllowed_iff addr s).mp h
  have hself : addr.toNat - 5 + 5 = addr.toNat := by omega
  exact hself ▸ hall 5 (by omega)

/-- A byte that a step changes is in the footprint of an admitted command, or the CPU's turn stands on it. -/
theorem step_changed_byte {s t : State} (h : step s = .next t) {a : Nat} (hne : t.mem.read a ≠ s.mem.read a) :
    (∃ W i, s.program[s.pc]? = some (.word W) ∧ decode W = .ok i ∧ s.admits i.dst (footprintOf i) ∧
      inFootprint i.dst (footprintOf i) a ∧ t.pc = s.pc + 1) ∨
    (∃ addr rest, s.turns = .setAccessed addr :: rest ∧ addr.toNat = a ∧ accessedAllowed addr s = true ∧
      t.pc = s.pc ∧ t.mem.read a = s.mem.read a ||| 0x01#8) := by
  obtain ⟨-, ⟨addr, rest, hturn, hallowed, rfl⟩ | ⟨it, -, hitem, hrun⟩⟩ := step_next_cases h
  · have haddr : a = addr.toNat := by
      by_contra hother
      exact hne (Memory.read_write_ne s.mem _ hother)
    subst haddr
    exact .inr ⟨addr, rest, hturn, rfl, hallowed, rfl, Memory.read_write_listed s.mem _ (or_one_ne_unlisted _)⟩
  · obtain ⟨W, f, -, rfl⟩ | ⟨W, i, rfl, hdec, hadm, rfl⟩ | ⟨e, -, he⟩ := hrun
    · exact absurd rfl hne
    · have hfoot : inFootprint i.dst (footprintOf i) a := by
        by_contra hout
        exact hne (commandBody_frame i _ hadm.aligned hout)
      exact .inl ⟨W, i, hitem, hdec, hadm, hfoot, rfl⟩
    · exact absurd (congrArg (Memory.read · a) (execEnv_mem he)) hne

/-- Settles O39: the two cases of `step_changed_byte`, each with what admission or rule R30 asks of the byte. -/
theorem onlyAdmittedBytesChange : Obligations.OnlyAdmittedBytesChange := by
  intro s t h a hne
  obtain ⟨W, i, hitem, hdec, hadm, hfoot, hpc⟩ | ⟨addr, rest, -, rfl, hallowed, hpc, hread⟩ := step_changed_byte h hne
  · obtain ⟨hstorage, hactive⟩ := State.admits_of_inFootprint hadm hfoot
    exact .inl ⟨hstorage, hactive, hadm.interruptsOff, hpc, W, i, hitem, hdec, hfoot⟩
  · have hmod := ((accessedAllowed_iff addr s).mp hallowed).1
    exact .inr ⟨contains_of_accessedAllowed hallowed, hmod, hpc, hread⟩

/-- An environment step takes no byte out of `ActiveRegions`: only the two loads write it, and they add a table. -/
theorem execEnv_keeps_active {e : EnvStep} {s t : State} (hs : s.activeRegions.wf = true) (h : execEnv e s = .next t)
    {a : Nat} (ha : s.activeRegions.contains a = true) : t.activeRegions.contains a = true := by
  obtain ⟨-, rfl⟩ | ⟨-, rfl⟩ | ⟨-, rfl⟩ | ⟨-, rfl⟩ | ⟨-, rfl⟩ | ⟨_, _, -, rfl⟩ | ⟨_, r, -, -, rfl⟩ | ⟨_, r, -, -, rfl⟩ :=
    execEnv_cases h
  iterate 6 exact ha
  · exact (State.activate_contains (s := s.withGdtr r) hs r a).mpr (.inl ha)
  · exact (State.activate_contains (s := s.withIdtr r) hs r a).mpr (.inl ha)

/-- No step takes a byte out of `ActiveRegions` (rule R25). -/
theorem step_keeps_active {s t : State} (hs : s.activeRegions.wf = true) (h : step s = .next t) {a : Nat}
    (ha : s.activeRegions.contains a = true) : t.activeRegions.contains a = true := by
  obtain ⟨-, ⟨addr, rest, -, -, rfl⟩ | ⟨it, -, -, hrun⟩⟩ := step_next_cases h
  · exact ha
  · obtain ⟨W, f, -, rfl⟩ | ⟨W, i, -, -, -, rfl⟩ | ⟨e, -, he⟩ := hrun
    · exact ha
    · exact ha
    · exact execEnv_keeps_active (s := { s with turns := s.turns.tail }) hs he ha

/-- Settles O38: `step_keeps_active`, and of the two cases of `step_changed_byte` an active byte is in no admitted command's
footprint. -/
theorem activeTablesAreReadOnlyButForTheAccessedBit : Obligations.ActiveTablesAreReadOnlyButForTheAccessedBit := by
  intro s t hinv h a ha
  refine ⟨step_keeps_active hinv.activeCanonical h ha, or_iff_not_imp_left.mpr fun hne => ?_⟩
  obtain ⟨W, i, -, -, hadm, hfoot, -⟩ | ⟨addr, rest, hturn, rfl, hallowed, -, hread⟩ := step_changed_byte h hne
  · have hactive := (State.admits_of_inFootprint hadm hfoot).2
    exact absurd ha (by simp [hactive])
  · have hmod := ((accessedAllowed_iff addr s).mp hallowed).1
    exact ⟨hmod, ⟨addr, rest, hturn, rfl⟩, hread⟩

end Sys2Proof.Machine
end

section
/-! SUPPORT. The machine's invariant: each kind of step keeps it, and the launch state meets it (spec rules R22, R25, R32, R166
and R167). -/

namespace Sys2Proof.Machine

open Sys2Proof

/-- A loaded table stays active while no byte leaves `ActiveRegions`. -/
theorem tableActive_mono {reg : Option TableReg} {set set' : AddrSet} (h : tableActive reg set)
    (hsub : ∀ a, set.contains a = true → set'.contains a = true) : tableActive reg set' := by
  intro r hr
  obtain ⟨hfits, hactive⟩ := h r hr
  exact ⟨hfits, fun a ha => hsub a (hactive a ha)⟩

/-- The schedule is in no clause of the invariant. -/
theorem State.Inv.ofTurns {s : State} (h : s.Inv) (ts : List Turn) : ({ s with turns := ts } : State).Inv := { h with }

/-- The fault record is in no clause of the invariant. -/
theorem State.Inv.ofFault {s : State} (h : s.Inv) (f : ModelFault) : (s.withFault f).Inv := { h with }

/-- Of the storage the invariant asks only its canonical form. -/
theorem State.Inv.ofMem {s : State} (h : s.Inv) {m : Memory} (hm : m.wf = true) : (s.withMem m).Inv :=
  { h with memCanonical := hm }

/-- A running machine whose `pc` is that of an item may advance (rule R22). -/
theorem State.Inv.ofAdvance {s : State} (h : s.Inv) (hrun : s.halt = .running) (hpc : s.pc < s.program.length) :
    s.advance.Inv :=
  { h with
    pcInProgram := hpc
    haltInProgram := fun hhalt => absurd hrun hhalt }

/-- `IF` may take any value but after a permanent halt (rule R166). -/
theorem State.Inv.ofSetIF {s : State} (h : s.Inv) {b : BitVec 1} (hb : s.halt = .permanently → b = 0#1) :
    (s.setIF b).Inv :=
  { h with permanentOff := fun hhalt => (State.setIF_IF s b).trans (hb hhalt) }

/-- A halt on an item, with interrupts off where it is permanent (rule R166). -/
theorem State.Inv.ofHalt {s : State} (h : s.Inv) (hpc : s.pc < s.program.length) {halt : HaltState}
    (hoff : halt = .permanently → s.IF = 0#1) : (s.withHalt halt).Inv :=
  { h with
    permanentOff := hoff
    haltInProgram := fun _ => hpc }

/-- The selector reload (rule R167). -/
theorem State.Inv.ofReload {s : State} (h : s.Inv) (cs ds : Half) :
    ((s.withSelectors cs ds).withReloadDue false).Inv :=
  { h with reloadAfterLoad := nofun }

/-- A table of the address space may be activated (rule R167). -/
theorem State.Inv.ofActivate {s : State} (h : s.Inv) {r : TableReg}
    (hr : r.base.toNat + r.size1.toNat < addressCount) : (s.activate r).Inv :=
  have hgrows : ∀ a, s.activeRegions.contains a = true → (s.activate r).activeRegions.contains a = true :=
    fun a ha => (State.activate_contains h.activeCanonical r a).mpr (.inl ha)
  { h with
    activeCanonical := AddrSet.wf_insert h.activeCanonical (Nat.le_add_right _ _) hr
    gdtActive := tableActive_mono h.gdtActive hgrows
    idtActive := tableActive_mono h.idtActive hgrows }

/-- The table that `State.activate` adds is active. -/
theorem tableActive_activate {s : State} (hs : s.activeRegions.wf = true) {r : TableReg}
    (hr : r.base.toNat + r.size1.toNat < addressCount) : tableActive (some r) (s.activate r).activeRegions := by
  rintro _ ⟨⟩
  exact ⟨hr, fun a ha => (State.activate_contains hs r a).mpr (.inr ha)⟩

/-- A segment-table load: it activates the table it loads, so a reload may be due (rules R167 and R185). -/
theorem State.Inv.ofLoadGdtr {s : State} (h : s.Inv) {r : TableReg}
    (hr : r.base.toNat + r.size1.toNat < addressCount) : (((s.withGdtr r).activate r).withReloadDue true).Inv :=
  { h.ofActivate hr with
    gdtActive := tableActive_activate h.activeCanonical hr
    reloadAfterLoad := nofun }

/-- An interrupt-table load: it activates the table it loads (rule R167). -/
theorem State.Inv.ofLoadIdtr {s : State} (h : s.Inv) {r : TableReg}
    (hr : r.base.toNat + r.size1.toNat < addressCount) : ((s.withIdtr r).activate r).Inv :=
  { h.ofActivate hr with idtActive := tableActive_activate h.activeCanonical hr }

/-- Every environment step on an item of a running program keeps the invariant. -/
theorem execEnv_keeps_inv {e : EnvStep} {s t : State} (h : s.Inv) (hrun : s.halt = .running)
    (hpc : s.pc < s.program.length) (he : execEnv e s = .next t) : t.Inv := by
  have hIF : ∀ b, s.halt = .permanently → b = 0#1 := by simp [hrun]
  obtain ⟨-, rfl⟩ | ⟨-, rfl⟩ | ⟨-, rfl⟩ | ⟨-, rfl⟩ | ⟨-, rfl⟩ | ⟨cs, ds, -, rfl⟩ | ⟨_, r, -, hr, rfl⟩ | ⟨_, r, -, hr, rfl⟩ :=
    execEnv_cases he
  · exact (h.ofSetIF (hIF _)).ofAdvance hrun hpc
  · exact (h.ofSetIF (hIF _)).ofAdvance hrun hpc
  · exact h.ofAdvance hrun hpc
  · exact h.ofHalt hpc nofun
  · exact (h.ofSetIF (hIF _)).ofHalt hpc fun _ => State.setIF_IF s 0#1
  · exact (h.ofReload cs ds).ofAdvance hrun hpc
  · exact (h.ofLoadGdtr hr).ofAdvance hrun hpc
  · exact (h.ofLoadIdtr hr).ofAdvance hrun hpc

/-- Settles O40: by the cases of `step_next_cases`, on the schedule left after the turn. -/
theorem stepKeepsTheInvariant : Obligations.StepKeepsTheInvariant := by
  intro s t hinv h
  have hturns := hinv.ofTurns s.turns.tail
  obtain ⟨⟨-, hrun⟩, ⟨addr, rest, -, -, rfl⟩ | ⟨it, -, hitem, hcase⟩⟩ := step_next_cases h
  · exact (hinv.ofTurns rest).ofMem (Memory.wf_write hinv.memCanonical addr.isLt _)
  · have hpc : s.pc < s.program.length := (List.getElem?_eq_some_iff.mp hitem).1
    obtain ⟨W, f, -, rfl⟩ | ⟨W, i, -, -, -, rfl⟩ | ⟨e, -, he⟩ := hcase
    · exact hturns.ofFault f
    · exact (hturns.ofMem (commandBody_wf i hturns.memCanonical)).ofAdvance hrun hpc
    · exact execEnv_keeps_inv hturns hrun hpc he

/-- Settles O41: nothing is loaded, halted, due or listed at launch. -/
theorem launchStateMeetsTheInvariant : Obligations.LaunchStateMeetsTheInvariant where
  memCanonical := rfl
  activeCanonical := rfl
  storageCanonical := by decide
  gdtActive := nofun
  idtActive := nofun
  reloadAfterLoad := nofun
  permanentOff := nofun
  pcInProgram := le_rfl
  haltInProgram := fun hhalt => absurd rfl hhalt

/-- Settles O42: the launch values, and bit 9 of the launch flags register. -/
theorem launchStateIsAsTheSpecSays : Obligations.LaunchStateIsAsTheSpecSays :=
  ⟨rfl, rfl, by decide, rfl, rfl⟩

end Sys2Proof.Machine
end

section
/-! SUPPORT. What a command leaves unchanged on any state, which item a step runs, and how `pc` moves (spec rules R22, R24, R27,
R44, R61 and R79). -/

namespace Sys2Proof.Machine

open Sys2Proof

/-- Settles O9: a fault writes the fault record alone; a command that passes admission has its body's frame. -/
theorem commandsWriteOnlyTheirFootprint : Obligations.CommandsWriteOnlyTheirFootprint := by
  intro i s
  rcases hadm : admission (encode i) i.dst (footprintOf i) s with _ | f
  · have hs := (admission_eq_none_iff _ _ (footprintOf_le i) s).mp hadm
    have hbody := (commandBody_sameEnvironment i s).1
    exact ⟨_, exec_of_admits i hs, State.sameEnvironment_trans hbody (State.advance_sameEnvironment _),
      fun a ha => commandBody_frame i s hs.aligned ha⟩
  · exact ⟨_, exec_of_admission hadm, State.withFault_sameEnvironment s f, fun _ _ => rfl⟩

/-- A word that decodes runs as its command (rules R22 and R79). -/
theorem runItem_of_decode {W : Command} {i : Instr} (h : decode W = .ok i) (s : State) :
    runItem (.word W) s = exec i s := by
  simp [runItem, h]

/-- Settles O24: the step of a state that issues a word runs it (`step_of_issues`), which is to run what it decodes to. -/
theorem stepRunsTheDecodedCommand : Obligations.StepRunsTheDecodedCommand := by
  intro s rest W i hissues hdec
  exact (step_of_issues hissues).trans (runItem_of_decode hdec _)

/-- The table's numbering, where it fits a command word, is the word's own value (rule R61). -/
theorem tableWord_eq_some {nbits w : Nat} {W : Command} (h : tableWord nbits w = some W) :
    BitVec.ofNat 128 (w % 2 ^ nbits) = W := by
  simp only [tableWord] at h
  split at h
  · injection h
  · cases h

/-- The word whose command `decodeTableWord` reads is the one that `State.withFetchWord` places (rule R61). -/
theorem decode_of_decodeTableWord {nbits w : Nat} {i : Instr} (h : decodeTableWord nbits w = some i) :
    decode (BitVec.ofNat 128 (w % 2 ^ nbits)) = .ok i := by
  unfold decodeTableWord at h
  split at h
  · cases h
  · rename_i W hW
    split at h
    · rename_i j hdec
      cases h
      rw [tableWord_eq_some hW, hdec]
    · cases h

/-- Settles O25: the prepared state issues the word it places, so O24's step runs its command. -/
theorem placedWordIsRunNext : Obligations.PlacedWordIsRunNext := fun s _ _ i hdec =>
  stepRunsTheDecodedCommand _ _ _ i (State.withNextWord_issues s _) (decode_of_decodeTableWord hdec)

/-- An environment step leaves `pc` or advances it by one (log 2). -/
theorem execEnv_pc {e : EnvStep} {s t : State} (h : execEnv e s = .next t) : t.pc = s.pc ∨ t.pc = s.pc + 1 := by
  obtain ⟨-, rfl⟩ | ⟨-, rfl⟩ | ⟨-, rfl⟩ | ⟨-, rfl⟩ | ⟨-, rfl⟩ | ⟨_, _, -, rfl⟩ | ⟨_, _, -, -, rfl⟩ | ⟨_, _, -, -, rfl⟩ :=
    execEnv_cases h
  iterate 3 exact .inr rfl
  iterate 2 exact .inl rfl
  iterate 3 exact .inr rfl

/-- Settles O26: a command by its admission, any step by the cases of `step_next_cases`. -/
theorem programIndexAdvancesByOneOrStays : Obligations.ProgramIndexAdvancesByOneOrStays := by
  constructor
  · intro i s hfault
    rcases hadm : admission (encode i) i.dst (footprintOf i) s with _ | f
    · have hs := (admission_eq_none_iff _ _ (footprintOf_le i) s).mp hadm
      exact ⟨_, exec_of_admits_eq i hs, fun _ => rfl, fun hf => absurd hfault hf⟩
    · exact ⟨_, exec_of_admission hadm, nofun, fun _ => rfl⟩
  · intro s t h
    obtain ⟨-, ⟨addr, rest, -, -, rfl⟩ | ⟨it, -, -, hrun⟩⟩ := step_next_cases h
    · exact .inl rfl
    · obtain ⟨W, f, -, rfl⟩ | ⟨W, i, -, -, -, rfl⟩ | ⟨e, -, he⟩ := hrun
      · exact .inl rfl
      · exact .inr rfl
      · exact execEnv_pc (s := { s with turns := s.turns.tail }) he

end Sys2Proof.Machine
end

section
/-! SUPPORT. Who writes the registers of the environment: the flags register, the table-base registers, `ActiveRegions` and the
selectors (spec rules R24, R25, R28, R166 and R167). -/

namespace Sys2Proof.Machine

open Sys2Proof

/-- Everything but `pc`, the storage, the fault record and the schedule is the same after a step, unless it ran an environment
step of the program. -/
theorem step_environment_cases {s t : State} (h : step s = .next t) :
    ({ s with turns := t.turns } : State).sameEnvironment t ∨
    ∃ e, s.program[s.pc]? = some (.env e) ∧ execEnv e { s with turns := s.turns.tail } = .next t := by
  obtain ⟨-, ⟨addr, rest, -, -, rfl⟩ | ⟨it, -, hitem, hrun⟩⟩ := step_next_cases h
  · exact .inl (by constructor <;> rfl)
  · obtain ⟨W, f, -, rfl⟩ | ⟨W, i, -, -, -, rfl⟩ | ⟨e, rfl, he⟩ := hrun
    · exact .inl (by constructor <;> rfl)
    · exact .inl (by constructor <;> rfl)
    · exact .inr ⟨e, hitem, he⟩

/-- An environment step leaves the flags register, or is one of three primitives, which write its `IF` (rule R166). -/
theorem execEnv_flags {e : EnvStep} {s t : State} (h : execEnv e s = .next t) :
    t.flags = s.flags ∨
    ((e = .cli ∨ e = .sti ∨ e = .haltPermanently) ∧ ∃ b, t.flags = replaceIF s.flags b) := by
  obtain ⟨rfl, rfl⟩ | ⟨rfl, rfl⟩ | ⟨-, rfl⟩ | ⟨-, rfl⟩ | ⟨rfl, rfl⟩ | ⟨_, _, -, rfl⟩ | ⟨_, _, -, -, rfl⟩ |
    ⟨_, _, -, -, rfl⟩ := execEnv_cases h
  · exact .inr ⟨.inl rfl, 0#1, rfl⟩
  · exact .inr ⟨.inr (.inl rfl), 1#1, rfl⟩
  · exact .inl rfl
  · exact .inl rfl
  · exact .inr ⟨.inr (.inr rfl), 0#1, rfl⟩
  iterate 3 exact .inl rfl

/-- Settles O28: only an environment step can write the flags register, and it is `execEnv_flags`. -/
theorem onlyThePrimitivesWriteFlags : Obligations.OnlyThePrimitivesWriteFlags := by
  intro s t h
  rcases step_environment_cases h with hsame | ⟨e, hitem, he⟩
  · exact ⟨fun j _ => by rw [hsame.flags], fun hne => absurd hsame.flags hne⟩
  · rw [hitem]
    rcases execEnv_flags he with hflags | ⟨hprim, b, hflags⟩
    · exact ⟨fun j _ => by rw [hflags], fun hne => absurd hflags hne⟩
    · exact ⟨fun j hj => by rw [hflags, replaceIF_other _ b hj], fun _ => by simpa using hprim⟩

/-- An environment step leaves the loader's registers, or is the load or the reload that writes them (rule R167). -/
theorem execEnv_loader {e : EnvStep} {s t : State} (h : execEnv e s = .next t) :
    (t.gdtr = s.gdtr ∨ ∃ slot, e = .lgdt slot) ∧ (t.idtr = s.idtr ∨ ∃ slot, e = .lidt slot) ∧
    (t.activeRegions = s.activeRegions ∨ ∃ slot, e = .lgdt slot ∨ e = .lidt slot) ∧
    ((t.codeSel = s.codeSel ∧ t.dataSel = s.dataSel) ∨ ∃ cs ds, e = .reload cs ds) := by
  obtain ⟨-, rfl⟩ | ⟨-, rfl⟩ | ⟨-, rfl⟩ | ⟨-, rfl⟩ | ⟨-, rfl⟩ | ⟨cs, ds, rfl, rfl⟩ | ⟨slot, _, rfl, -, rfl⟩ |
    ⟨slot, _, rfl, -, rfl⟩ := execEnv_cases h
  iterate 5 exact ⟨.inl rfl, .inl rfl, .inl rfl, .inl ⟨rfl, rfl⟩⟩
  · exact ⟨.inl rfl, .inl rfl, .inl rfl, .inr ⟨cs, ds, rfl⟩⟩
  · exact ⟨.inr ⟨slot, rfl⟩, .inl rfl, .inr ⟨slot, .inl rfl⟩, .inl ⟨rfl, rfl⟩⟩
  · exact ⟨.inl rfl, .inr ⟨slot, rfl⟩, .inr ⟨slot, .inr rfl⟩, .inl ⟨rfl, rfl⟩⟩

/-- Settles O29: only an environment step can write these registers, and it is `execEnv_loader`. -/
theorem onlyTheLoaderWritesItsRegisters : Obligations.OnlyTheLoaderWritesItsRegisters := by
  intro s t h
  rcases step_environment_cases h with hsame | ⟨e, hitem, he⟩
  · exact ⟨absurd hsame.gdtr, absurd hsame.idtr, absurd hsame.activeRegions,
      fun hne => hne.elim (absurd hsame.codeSel) (absurd hsame.dataSel)⟩
  · obtain ⟨hgdtr, hidtr, hactive, hsel⟩ := execEnv_loader he
    simp only [hitem, Option.some.injEq, ProgItem.env.injEq]
    exact ⟨hgdtr.resolve_left, hidtr.resolve_left, hactive.resolve_left,
      fun hne => hsel.resolve_left fun hkept => hne.elim (absurd hkept.1) (absurd hkept.2)⟩

end Sys2Proof.Machine
end

section
/-! SUPPORT. The CPU's turn on a byte: what the accessed-bit write does, and where it is refused (spec rule R30). -/

namespace Sys2Proof.Machine

open Sys2Proof

/-- The next step of an enabled state on the CPU's turn is the accessed-bit write (rule R30). -/
theorem step_of_setAccessed {s : State} {addr : Word} {rest : List Turn} (he : s.enabled)
    (hturn : s.turns = .setAccessed addr :: rest) : step s = envSetAccessed addr (s.withTurns rest) := by
  rw [step_of_enabled he, takeTurn, hturn]

/-- Settles O37: `accessedAllowed_iff` decides between the one write of rule R30 and the refusal of log 11. -/
theorem accessedBitWriteSetsOneBit : Obligations.AccessedBitWriteSetsOneBit := by
  intro s addr rest he hturn
  rw [step_of_setAccessed he hturn, envSetAccessed]
  constructor
  · intro slot hslot haligned hactive hwf
    have hallowed : accessedAllowed addr (s.withTurns rest) = true :=
      (accessedAllowed_iff ..).mpr ⟨by omega, by simpa [hslot] using hactive⟩
    rw [if_pos hallowed]
    exact ⟨_, rfl, Memory.read_write_self hwf _ _, fun a ha => Memory.read_write_ne s.mem _ ha⟩
  · intro hout
    have hrefused : ¬ accessedAllowed addr (s.withTurns rest) = true := by
      rw [accessedAllowed_iff]
      rintro ⟨hmod, hall⟩
      rcases hout with hmod' | ⟨k, hk, hclear⟩
      · exact hmod' hmod
      · have hset : s.activeRegions.contains (addr.toNat - 5 + k) = true := hall k hk
        simp [hclear] at hset
    rw [if_neg hrefused]

end Sys2Proof.Machine
end

section
/-! SUPPORT. The bytes a command leaves in its slot, as data: those of its operands, and for SEG_ENCODE the old bits 5:4 of
byte 6 under `preserve` (spec rules R47, R48, R105, R124 and R141). -/

namespace Sys2Proof.Machine

open Sys2Proof

/-! The slot a command of 8 bytes leaves. -/

/-- The bytes of a slot, lowest address first (rule R10). -/
def slotBytes (B : Slot) : List Byte := [B.b0, B.b1, B.b2, B.b3, B.b4, B.b5, B.b6, B.b7]

/-- The slot SEG_ENCODE leaves, with `rsv` in bits 5:4 of byte 6 (rule R70). -/
def segSlot (src : SegSource) (rsv : BitVec 2) : Slot :=
  ⟨byteOf (limit20 src) 0, byteOf (limit20 src) 1, byteOf src.base 0, byteOf src.base 1, byteOf src.base 2,
    accessByte src, segByte6 src rsv, byteOf src.base 3⟩

/-- The slot GATE_ENCODE leaves (rule R71). -/
def gateSlot (src : GateSource) : Slot :=
  ⟨byteOf src.off 0, byteOf src.off 1, byteOf src.sel 0, byteOf src.sel 1, 0x00#8, gateByte5 src,
    byteOf src.off 2, byteOf src.off 3⟩

@[simp] theorem State.advance_readSlot (s : State) (dst : Word) : s.advance.readSlot dst = s.readSlot dst := rfl

theorem readSlot_b6 {s : State} {dst : Word} (h : dst.toNat % 8 = 0) :
    (s.readSlot dst).b6 = s.mem.read (dst.toNat + 6) := by
  rw [readSlot_eq h]

/-- A command whose bytes are a whole slot's leaves that slot. -/
theorem commandBody_readSlot (i : Instr) {s : State} (hm : s.mem.wf = true) (h : i.dst.toNat % 8 = 0) {B : Slot}
    (hB : commandBytes i s = slotBytes B) : (commandBody i s).readSlot i.dst = B := by
  have hread : ∀ k (hk : k < 8), (commandBody i s).mem.read (i.dst.toNat + k) = (slotBytes B)[k]'hk := by
    intro k hk
    simp only [← hB]
    exact commandBody_read i hm h (hB ▸ hk)
  have h0 : (commandBody i s).mem.read i.dst.toNat = B.b0 := hread 0 (by decide)
  rw [readSlot_eq h, h0, hread 1 (by decide), hread 2 (by decide), hread 3 (by decide), hread 4 (by decide),
    hread 5 (by decide), hread 6 (by decide), hread 7 (by decide)]
  rfl

/-- GATE_ENCODE leaves its slot whatever stood there (rules R48 and R71). -/
theorem gateBody_readSlot {dst : Word} (src : GateSource) {s : State} (hm : s.mem.wf = true) (h : dst.toNat % 8 = 0) :
    (gateBody dst src s).readSlot dst = gateSlot src :=
  commandBody_readSlot (.gateEncode dst src) hm h rfl

/-- SEG_ENCODE leaves its slot with the reserved bits the policy takes from the old byte 6 (rules R48 and R70). -/
theorem segBody_readSlot {dst : Word} (src : SegSource) {s : State} (hm : s.mem.wf = true) (h : dst.toNat % 8 = 0) :
    (segBody dst src s).readSlot dst = segSlot src (reservedBits s.segB6Rsvd (s.readSlot dst).b6) :=
  commandBody_readSlot (.segEncode dst src) hm h rfl

/-! The reserved bits of a segment descriptor, bits 5:4 of byte 6. -/

@[simp] theorem segByte6_rsv (src : SegSource) (rsv : BitVec 2) : (segByte6 src rsv).extractLsb' 4 2 = rsv :=
  (BitVec.extractLsb'_append_eq_of_le (by decide)).trans BitVec.extractLsb'_append_eq_right

/-- Byte 6 outside its reserved bits is the operands' alone: the mask clears `rsv`, field by field. -/
theorem segByte6_outside_rsv (src : SegSource) (rsv : BitVec 2) :
    segByte6 src rsv &&& ~~~0x30#8 =
      ((src.g ++ src.db) &&& 3#2) ++ 0#2 ++ ((limit20 src).extractLsb' 16 4 &&& 15#4) :=
  calc segByte6 src rsv &&& (3#2 ++ 0#2 ++ 15#4)
      = ((src.g ++ src.db ++ rsv) &&& (3#2 ++ 0#2)) ++ ((limit20 src).extractLsb' 16 4 &&& 15#4) := BitVec.and_append
    _ = ((src.g ++ src.db) &&& 3#2) ++ (rsv &&& 0#2) ++ ((limit20 src).extractLsb' 16 4 &&& 15#4) :=
      congrArg (· ++ _) BitVec.and_append
    _ = _ := by rw [BitVec.and_zero]

/-- Slots of one source agree outside bits 5:4 of byte 6. -/
theorem segSlot_agree_outside_rsv (src : SegSource) (rsv rsv' : BitVec 2) :
    slotsAgreeOutside ⟨0x00#8, 0x00#8, 0x00#8, 0x00#8, 0x00#8, 0x00#8, 0x30#8, 0x00#8⟩
      (segSlot src rsv) (segSlot src rsv') :=
  ⟨rfl, rfl, rfl, rfl, rfl, rfl, (segByte6_outside_rsv src rsv).trans (segByte6_outside_rsv src rsv').symm, rfl⟩

/-- The policy takes the same reserved bits from two bytes when it ignores them or they agree in bits 5:4. -/
theorem reservedBits_congr {policy : SegB6Rsvd} {old old' : Byte}
    (h : policy = .zero ∨ old.extractLsb' 4 2 = old'.extractLsb' 4 2) :
    reservedBits policy old = reservedBits policy old' := by
  cases policy with
  | zero => rfl
  | preserve => exact h.resolve_left (by decide)

/-- The policy takes from the byte 6 it made the bits it put there: the fixed point behind rule R105. -/
theorem reservedBits_segByte6 (policy : SegB6Rsvd) (src : SegSource) (old : Byte) :
    reservedBits policy (segByte6 src (reservedBits policy old)) = reservedBits policy old := by
  cases policy with
  | zero => rfl
  | preserve => exact segByte6_rsv src _

/-! A command run again. -/

/-- A command that has completed would write the same bytes again: only SEG_ENCODE looks at the old bytes, at the
reserved bits it has just left. -/
theorem commandBytes_of_completed (i : Instr) {s : State} (hm : s.mem.wf = true) (h : i.dst.toNat % 8 = 0) :
    commandBytes i (commandBody i s).advance = commandBytes i s := by
  cases i with
  | segEncode dst src =>
    calc commandBytes (.segEncode dst src) (segBody dst src s).advance
        = segBytes src (reservedBits s.segB6Rsvd ((segBody dst src s).readSlot dst).b6) := rfl
      _ = segBytes src (reservedBits s.segB6Rsvd (s.readSlot dst).b6) := by
        rw [segBody_readSlot (dst := dst) src hm h, segSlot, reservedBits_segByte6]
  | gateEncode dst src => rfl
  | tdescEncode dst src => rfl

/-- Bytes stored twice at one place are the bytes stored once. -/
theorem store_store_same {m : Memory} (hm : m.wf = true) {dst : Word} (bs : List Byte)
    (hfit : dst.toNat + bs.length ≤ addressCount) : (m.store dst bs).store dst bs = m.store dst bs := by
  have hwf := Memory.wf_store hm dst bs
  refine Memory.ext_of_wf (Memory.wf_store hwf dst bs) hwf fun a => ?_
  by_cases ha : inFootprint dst bs.length a
  · obtain ⟨hlo, hhi⟩ := ha
    obtain ⟨k, rfl⟩ := Nat.exists_eq_add_of_le hlo
    have hk : k < bs.length := by omega
    rw [read_store_at hwf bs hk hfit, read_store_at hm bs hk hfit]
  · exact read_store_outside_footprint _ bs ha hfit

/-- Settles O16: a gate's and a table descriptor's bytes are those of the operands alone; a segment descriptor's are
`segSlot` of the reserved bits. -/
theorem resultsDependOnOldBytesOnlyAsStated : Obligations.ResultsDependOnOldBytesOnlyAsStated := by
  refine ⟨fun dst src s u hms hs hmu hu => ?gate, fun dst src s u hms hs hmu hu => ?tdesc,
    fun dst src s u hms hs hmu hu hpolicy => ?seg⟩
  case gate =>
    exact ⟨_, _, exec_of_admits (.gateEncode dst src) hs, exec_of_admits (.gateEncode dst src) hu,
      (gateBody_readSlot src hmu hu.aligned).trans (gateBody_readSlot src hms hs.aligned).symm⟩
  case tdesc =>
    exact ⟨_, _, exec_of_admits (.tdescEncode dst src) hs, exec_of_admits (.tdescEncode dst src) hu, fun k hk =>
      (commandBody_read (.tdescEncode dst src) hmu hu.aligned hk).trans
        (commandBody_read (.tdescEncode dst src) hms hs.aligned hk).symm⟩
  case seg =>
    refine ⟨(segBody dst src s).advance, (segBody dst src u).advance, exec_of_admits (.segEncode dst src) hs,
      exec_of_admits (.segEncode dst src) hu, ?_⟩
    rw [State.advance_readSlot, State.advance_readSlot, segBody_readSlot src hms hs.aligned,
      segBody_readSlot src hmu hu.aligned, hpolicy, readSlot_b6 hs.aligned, readSlot_b6 hu.aligned]
    exact ⟨segSlot_agree_outside_rsv src _ _, fun hold => by rw [reservedBits_congr hold]⟩

/-- Settles O17: the state after a command admits it again, with the same bytes to store, and a store repeated changes
nothing. -/
theorem repeatedCommandLeavesStorageIdentical : Obligations.RepeatedCommandLeavesStorageIdentical := by
  intro i s hm hs
  have henv := State.sameEnvironment_trans (commandBody_sameEnvironment i s).1 (State.advance_sameEnvironment _)
  have hagain := State.admits_of_sameEnvironment henv hs
  have hfit : i.dst.toNat + (commandBytes i s).length ≤ addressCount :=
    aligned_fits hs.aligned (commandBytes_length i s ▸ footprintOf_le i)
  refine ⟨_, _, exec_of_admits i hs, exec_of_admits i hagain, ?_⟩
  calc (commandBody i (commandBody i s).advance).mem
      = (commandBody i s).mem.store i.dst (commandBytes i s) := by
        rw [commandBody_mem i (s := (commandBody i s).advance) (commandBody_wf i hm) hs.aligned,
          commandBytes_of_completed i hm hs.aligned, State.advance_mem]
    _ = (commandBody i s).mem := by rw [commandBody_mem i hm hs.aligned, store_store_same hm _ hfit]

end Sys2Proof.Machine
end

section
/-! SUPPORT. The decoder and the encoder are inverse to each other: a command's ports and the fields of rule R63 determine each
other once the fixed bits of its row are 0 (spec rules R63 to R68 and R79). -/

namespace Sys2Proof.Machine

open Sys2Proof

/-! The ports of a command by the fields of its word. -/

/-- The ports of SEG_ENCODE by the fields `OPA`, `OPB`, `F1` and `F0` (rule R65). -/
def segPortsOf (opa opb : Word) (f1 f0 : Byte) : SegSource where
  base  := opa
  limit := opb
  p     := f0.extractLsb' 7 1
  dpl   := f0.extractLsb' 5 2
  x     := f0.extractLsb' 3 1
  dc    := f0.extractLsb' 2 1
  rw    := f0.extractLsb' 1 1
  a     := f0.extractLsb' 0 1
  g     := f1.extractLsb' 7 1
  db    := f1.extractLsb' 6 1

/-- The ports of GATE_ENCODE by the fields `OPA`, `OPB` and `F0` (rule R66). -/
def gatePortsOf (opa opb : Word) (f0 : Byte) : GateSource where
  off  := opa
  sel  := opb.extractLsb' 0 16
  kind := f0.extractLsb' 0 4
  s    := f0.extractLsb' 4 1
  dpl  := f0.extractLsb' 5 2
  p    := f0.extractLsb' 7 1

/-- The ports of TDESC_ENCODE by the fields `OPA` and `OPB` (rule R67). -/
def tdescPortsOf (opa opb : Word) : TdescSource where
  base  := opa
  size1 := opb.extractLsb' 0 16

theorem segPorts_eq (W : Command) :
    segPorts W =
      segPortsOf (W.extractLsb' 64 32) (W.extractLsb' 32 32) (W.extractLsb' 24 8) (W.extractLsb' 16 8) := by
  simp [segPorts, segPortsOf, extract_extract]

theorem gatePorts_eq (W : Command) :
    gatePorts W = gatePortsOf (W.extractLsb' 64 32) (W.extractLsb' 32 32) (W.extractLsb' 16 8) := by
  simp [gatePorts, gatePortsOf, extract_extract]

theorem tdescPorts_eq (W : Command) :
    tdescPorts W = tdescPortsOf (W.extractLsb' 64 32) (W.extractLsb' 32 32) := by
  simp [tdescPorts, tdescPortsOf, extract_extract]

/-- `{p, dpl, s, x, dc, rw, a}`: `F0` of SEG_ENCODE and its access byte, which differ in `s` (rules R65 and R101). -/
def flagByte (p : BitVec 1) (dpl : BitVec 2) (s x dc rw a : BitVec 1) : Byte := p ++ dpl ++ s ++ x ++ dc ++ rw ++ a

theorem segF0_eq_flagByte (src : SegSource) :
    segF0 src = flagByte src.p src.dpl 0#1 src.x src.dc src.rw src.a := rfl

theorem accessByte_eq_flagByte (src : SegSource) :
    accessByte src = flagByte src.p src.dpl 1#1 src.x src.dc src.rw src.a := rfl

theorem flagByte_fields (p : BitVec 1) (dpl : BitVec 2) (s x dc rw a : BitVec 1) :
    (flagByte p dpl s x dc rw a).extractLsb' 0 1 = a ∧ (flagByte p dpl s x dc rw a).extractLsb' 1 1 = rw ∧
    (flagByte p dpl s x dc rw a).extractLsb' 2 1 = dc ∧ (flagByte p dpl s x dc rw a).extractLsb' 3 1 = x ∧
    (flagByte p dpl s x dc rw a).extractLsb' 4 1 = s ∧ (flagByte p dpl s x dc rw a).extractLsb' 5 2 = dpl ∧
    (flagByte p dpl s x dc rw a).extractLsb' 7 1 = p := by
  revert p dpl s x dc rw a
  decide

theorem flagByte_of_fields (b : Byte) :
    flagByte (b.extractLsb' 7 1) (b.extractLsb' 5 2) (b.extractLsb' 4 1) (b.extractLsb' 3 1) (b.extractLsb' 2 1)
      (b.extractLsb' 1 1) (b.extractLsb' 0 1) = b := by
  revert b
  decide

theorem segF1_fields (src : SegSource) :
    (segF1 src).extractLsb' 7 1 = src.g ∧ (segF1 src).extractLsb' 6 1 = src.db := by
  unfold segF1
  generalize src.g = g, src.db = db
  revert g db
  decide

theorem gateF0_fields (src : GateSource) :
    (gateF0 src).extractLsb' 0 4 = src.kind ∧ (gateF0 src).extractLsb' 4 1 = src.s ∧
    (gateF0 src).extractLsb' 5 2 = src.dpl ∧ (gateF0 src).extractLsb' 7 1 = src.p := by
  unfold gateF0
  generalize src.p = p, src.dpl = dpl, src.s = s, src.kind = kind
  revert p dpl s kind
  decide

theorem lowHalf_zero_append (v : Half) : (0#16 ++ v : Word).extractLsb' 0 16 = v := BitVec.extractLsb'_append_eq_right

/-- The ports that the fields of a SEG_ENCODE word give are the ones they were made of. -/
theorem segPortsOf_fields (src : SegSource) : segPortsOf src.base src.limit (segF1 src) (segF0 src) = src := by
  obtain ⟨hg, hdb⟩ := segF1_fields src
  obtain ⟨ha, hrw, hdc, hx, -, hdpl, hp⟩ := flagByte_fields src.p src.dpl 0#1 src.x src.dc src.rw src.a
  simp only [segPortsOf, segF0_eq_flagByte, hg, hdb, ha, hrw, hdc, hx, hdpl, hp]

theorem gatePortsOf_fields (src : GateSource) : gatePortsOf src.off (0#16 ++ src.sel) (gateF0 src) = src := by
  obtain ⟨hkind, hs, hdpl, hp⟩ := gateF0_fields src
  simp only [gatePortsOf, lowHalf_zero_append, hkind, hs, hdpl, hp]

theorem tdescPortsOf_fields (src : TdescSource) : tdescPortsOf src.base (0#16 ++ src.size1) = src := by
  simp only [tdescPortsOf, lowHalf_zero_append]

theorem segF0_segPortsOf (opa opb : Word) (f1 : Byte) {f0 : Byte} (h : f0.extractLsb' 4 1 = 0#1) :
    segF0 (segPortsOf opa opb f1 f0) = f0 := by
  rw [segF0_eq_flagByte, ← h]
  exact flagByte_of_fields f0

theorem segF1_segPortsOf (opa opb : Word) {f1 : Byte} (f0 : Byte) (h : f1.extractLsb' 0 6 = 0#6) :
    segF1 (segPortsOf opa opb f1 f0) = f1 := by
  simp only [segF1, segPortsOf, ← h]
  clear h
  revert f1
  decide

theorem gateF0_gatePortsOf (opa opb : Word) (f0 : Byte) : gateF0 (gatePortsOf opa opb f0) = f0 := by
  simp only [gateF0, gatePortsOf]
  revert f0
  decide

/-- An operand whose upper half is fixed at 0 is its lower half (rules R66 and R67). -/
theorem zero_append_lowHalf {v : Word} (h : v.extractLsb' 16 16 = 0#16) : 0#16 ++ v.extractLsb' 0 16 = v := by
  rw [← h]
  exact BitVec.extractLsb'_append_extractLsb' (w := 16) (len := 16)

/-! The decoder, row by row. -/

theorem covers_iff_mask (r : OpRow) (W : Command) : r.covers W = true ↔ W &&& r.mask = r.pattern := beq_iff_eq

theorem mem_opcodeTable_iff (r : OpRow) : r ∈ opcodeTable ↔ r = segRow ∨ r = gateRow ∨ r = tdescRow := by
  simp [opcodeTable]

theorem row_mem_opcodeTable (i : Instr) : i.row ∈ opcodeTable := by
  cases i <;> simp [Instr.row, opcodeTable]

/-- A covered word has its row's operation code (rule R64). -/
theorem opField_of_covers {r : OpRow} (hr : r ∈ opcodeTable) {W : Command} (h : r.covers W = true) :
    opField W = r.pattern.extractLsb' 0 2 := by
  obtain rfl | rfl | rfl := (mem_opcodeTable_iff r).mp hr
  · exact ((segRow_covers_iff W).mp h).1
  · exact ((gateRow_covers_iff W).mp h).1
  · exact ((tdescRow_covers_iff W).mp h).1

/-- No word is covered by two rows, as their operation codes differ (rule R79). -/
theorem row_unique {r r' : OpRow} (hr : r ∈ opcodeTable) (hr' : r' ∈ opcodeTable) {W : Command}
    (h : r.covers W = true) (h' : r'.covers W = true) : r = r' := by
  have hops : ∀ q ∈ opcodeTable, ∀ q' ∈ opcodeTable,
      q.pattern.extractLsb' 0 2 = q'.pattern.extractLsb' 0 2 → q = q' := by decide
  exact hops r hr r' hr' ((opField_of_covers hr h).symm.trans (opField_of_covers hr' h'))

/-- A word covered by one row is not covered by another. -/
theorem not_covers_of_ne {r r' : OpRow} (hr : r ∈ opcodeTable) (hr' : r' ∈ opcodeTable) (hne : r ≠ r') {W : Command}
    (h : r.covers W = true) : r'.covers W = false :=
  Bool.eq_false_iff.mpr fun h' => hne (row_unique hr hr' h h')

theorem decode_of_segRow {W : Command} (h : segRow.covers W = true) :
    decode W = .ok (.segEncode (dstField W) (segPorts W)) := by
  rw [decode, if_pos h]

theorem decode_of_gateRow {W : Command} (h : gateRow.covers W = true) :
    decode W = .ok (.gateEncode (dstField W) (gatePorts W)) := by
  have hseg : segRow.covers W = false := not_covers_of_ne (by decide) (by decide) (by decide) h
  simp [decode, hseg, h]

theorem decode_of_tdescRow {W : Command} (h : tdescRow.covers W = true) :
    decode W = .ok (.tdescEncode (dstField W) (tdescPorts W)) := by
  have hseg : segRow.covers W = false := not_covers_of_ne (by decide) (by decide) (by decide) h
  have hgate : gateRow.covers W = false := not_covers_of_ne (by decide) (by decide) (by decide) h
  simp [decode, hseg, hgate, h]

/-- All that a word can decode to: the command of a row that covers it. -/
theorem decode_cases {W : Command} {i : Instr} (h : decode W = .ok i) :
    (segRow.covers W = true ∧ i = .segEncode (dstField W) (segPorts W)) ∨
    (gateRow.covers W = true ∧ i = .gateEncode (dstField W) (gatePorts W)) ∨
    (tdescRow.covers W = true ∧ i = .tdescEncode (dstField W) (tdescPorts W)) := by
  unfold decode at h
  split_ifs at h with hseg hgate htdesc hop
  · exact .inl ⟨hseg, (Except.ok.inj h).symm⟩
  · exact .inr (.inl ⟨hgate, (Except.ok.inj h).symm⟩)
  · exact .inr (.inr ⟨htdesc, (Except.ok.inj h).symm⟩)

/-- The command a word decodes to is that of a row that covers it (rule R79). -/
theorem row_covers_of_decode {W : Command} {i : Instr} (h : decode W = .ok i) : i.row.covers W = true := by
  obtain ⟨hcov, rfl⟩ | ⟨hcov, rfl⟩ | ⟨hcov, rfl⟩ := decode_cases h <;> exact hcov

/-- A word decodes exactly when a row covers it (rule R79). -/
theorem decodes_iff_covered (W : Command) :
    (∃ i, decode W = .ok i) ↔ ∃ r ∈ opcodeTable, r.covers W = true := by
  constructor
  · rintro ⟨i, h⟩
    exact ⟨i.row, row_mem_opcodeTable i, row_covers_of_decode h⟩
  · rintro ⟨r, hr, h⟩
    obtain rfl | rfl | rfl := (mem_opcodeTable_iff r).mp hr
    · exact ⟨_, decode_of_segRow h⟩
    · exact ⟨_, decode_of_gateRow h⟩
    · exact ⟨_, decode_of_tdescRow h⟩

/-! The two inverses. -/

theorem dstField_encode (i : Instr) : dstField (encode i) = i.dst := by
  cases i <;> exact rawWord_dst ..

theorem segPorts_encode (dst : Word) (src : SegSource) : segPorts (encode (.segEncode dst src)) = src := by
  rw [segPorts_eq, encode, packCommand_eq_rawWord, rawWord_opa, rawWord_opb, rawWord_f1, rawWord_f0,
    segPortsOf_fields]

theorem gatePorts_encode (dst : Word) (src : GateSource) : gatePorts (encode (.gateEncode dst src)) = src := by
  rw [gatePorts_eq, encode, packCommand_eq_rawWord, rawWord_opa, rawWord_opb, rawWord_f0, gatePortsOf_fields]

theorem tdescPorts_encode (dst : Word) (src : TdescSource) : tdescPorts (encode (.tdescEncode dst src)) = src := by
  rw [tdescPorts_eq, encode, packCommand_eq_rawWord, rawWord_opa, rawWord_opb, tdescPortsOf_fields]

/-- Settles O1: a command's word is covered by its own row (`Laws.EncodedRow`), whose ports are the command's. -/
theorem decodeOfEncodeIsTheCommand : Obligations.DecodeOfEncodeIsTheCommand := by
  intro i
  cases i with
  | segEncode dst src =>
    rw [decode_of_segRow (Laws.EncodedRow.segEncode dst src), dstField_encode, segPorts_encode, Instr.dst]
  | gateEncode dst src =>
    rw [decode_of_gateRow (Laws.EncodedRow.gateEncode dst src), dstField_encode, gatePorts_encode, Instr.dst]
  | tdescEncode dst src =>
    rw [decode_of_tdescRow (Laws.EncodedRow.tdescEncode dst src), dstField_encode, tdescPorts_encode, Instr.dst]

/-- A SEG_ENCODE word is the encoding of its ports (rule R65). -/
theorem encode_segPorts {W : Command} (h : segRow.covers W = true) :
    encode (.segEncode (dstField W) (segPorts W)) = W := by
  obtain ⟨hop, hrsv, h4, h6⟩ := (segRow_covers_iff W).mp h
  rw [← extract_extract W 16 4 8 1 (by decide)] at h4
  rw [← extract_extract W 24 0 8 6 (by decide)] at h6
  conv_rhs => rw [word_eq_rawWord W, hop, hrsv]
  rw [segPorts_eq, encode, packCommand_eq_rawWord, segF0_segPortsOf _ _ _ h4, segF1_segPortsOf _ _ _ h6]
  rfl

/-- A GATE_ENCODE word is the encoding of its ports (rule R66). -/
theorem encode_gatePorts {W : Command} (h : gateRow.covers W = true) :
    encode (.gateEncode (dstField W) (gatePorts W)) = W := by
  obtain ⟨hop, hrsv, hf1, hhigh⟩ := (gateRow_covers_iff W).mp h
  rw [← extract_extract W 32 16 32 16 (by decide)] at hhigh
  conv_rhs => rw [word_eq_rawWord W, hop, hrsv, hf1, ← zero_append_lowHalf hhigh]
  rw [gatePorts_eq, encode, packCommand_eq_rawWord, gateF0_gatePortsOf]
  rfl

/-- A TDESC_ENCODE word is the encoding of its ports (rule R67). -/
theorem encode_tdescPorts {W : Command} (h : tdescRow.covers W = true) :
    encode (.tdescEncode (dstField W) (tdescPorts W)) = W := by
  obtain ⟨hop, hrsv, hflags, hhigh⟩ := (tdescRow_covers_iff W).mp h
  rw [← extract_extract W 32 16 32 16 (by decide)] at hhigh
  have hf1 : W.extractLsb' 24 8 = 0#8 := by rw [← extract_extract W 16 8 16 8 (by decide), hflags]; rfl
  have hf0 : W.extractLsb' 16 8 = 0#8 := by rw [← extract_extract W 16 0 16 8 (by decide), hflags]; rfl
  conv_rhs => rw [word_eq_rawWord W, hop, hrsv, hf1, hf0, ← zero_append_lowHalf hhigh]
  rw [tdescPorts_eq]
  rfl

/-- Settles O2: the row that covers the word fixes every bit that is no port's. -/
theorem encodeOfDecodeIsTheWord : Obligations.EncodeOfDecodeIsTheWord := by
  intro W i h
  obtain ⟨hcov, rfl⟩ | ⟨hcov, rfl⟩ | ⟨hcov, rfl⟩ := decode_cases h
  · exact encode_segPorts hcov
  · exact encode_gatePorts hcov
  · exact encode_tdescPorts hcov

/-- Settles O3: `row_unique`, `decodes_iff_covered` and `row_covers_of_decode`, with `OpRow.covers` spelled out. -/
theorem wordsDecodeByTheirOneRow : Obligations.WordsDecodeByTheirOneRow := by
  intro W
  simp only [← covers_iff_mask]
  exact ⟨fun r hr r' hr' => row_unique hr hr', decodes_iff_covered W,
    fun i h => ⟨row_mem_opcodeTable i, row_covers_of_decode h⟩⟩

end Sys2Proof.Machine
end

section
/-! SUPPORT. Words that spell no command: the bits that rules R65 to R67 fix decide between a command and
`ReservedCommand(W)`, and bits 31:20 of a limit decide nothing (spec rules R68 and R69). -/

namespace Sys2Proof.Machine

open Sys2Proof

theorem opcode_cases (op : BitVec 2) : op = 0#2 ∨ op = 1#2 ∨ op = 2#2 ∨ op = 3#2 := by
  revert op
  decide

/-- A row covers a word exactly when the word is not reserved: for each operation code, the row's fixed bits are those that
rule R68 asks to be 0. -/
theorem covered_iff_not_reserved (W : Command) :
    (∃ r ∈ opcodeTable, r.covers W = true) ↔ ¬ wordIsReserved W := by
  simp only [mem_opcodeTable_iff, exists_eq_or_imp, exists_eq_left, segRow_covers_iff, gateRow_covers_iff,
    tdescRow_covers_iff, wordIsReserved]
  obtain hop | hop | hop | hop := opcode_cases (W.extractLsb' 0 2) <;> simp [hop]

/-- A reserved word raises `ReservedCommand(W)` (rule R68). -/
theorem runItem_of_reserved {W : Command} (h : wordIsReserved W) (s : State) :
    runItem (.word W) s = raise (.reservedCommand W) s := by
  have hnone : ¬ ∃ i, decode W = .ok i := by
    rw [decodes_iff_covered, covered_iff_not_reserved]
    exact not_not_intro h
  cases hdec : decode W with
  | ok i => exact absurd ⟨i, hdec⟩ hnone
  | error r => simp [runItem, hdec]

/-- SEG_ENCODE's bytes take the low 20 bits of the limit (rule R69). -/
theorem segBytes_congr_limit (src : SegSource) {limit : Word}
    (h : limit.extractLsb' 0 20 = src.limit.extractLsb' 0 20) (rsv : BitVec 2) :
    segBytes { src with limit := limit } rsv = segBytes src rsv := by
  have hlimit : limit20 { src with limit := limit } = limit20 src := h
  simp only [segBytes, segByte6, accessByte, hlimit]

/-- Settles O4: `covered_iff_not_reserved` splits the words, and an admitted SEG_ENCODE stores `segBytes`. -/
theorem reservedWordsRaiseReservedCommand : Obligations.ReservedWordsRaiseReservedCommand := by
  intro s rest W hissues
  refine ⟨fun hres => ?_, fun hcmd => ?_, fun dst src limit hs hlimit => ?_⟩
  · exact (step_of_issues hissues).trans (runItem_of_reserved hres _)
  · exact (decodes_iff_covered W).mpr ((covered_iff_not_reserved W).mpr hcmd)
  · have hbody : segBody dst { src with limit := limit } s = segBody dst src s := by
      rw [segBody, segBytes_congr_limit src hlimit, segBody]
    rw [exec_of_admits (.segEncode dst _) hs, exec_of_admits (.segEncode dst src) hs, commandBody, hbody, commandBody]

/-- Settles O5: the seven words of 95_test_vectors.md, decoded. -/
theorem wordsOfTheTestVectorsDecode : Obligations.WordsOfTheTestVectorsDecode :=
  ⟨rfl, rfl, rfl, rfl, rfl, rfl, rfl⟩

end Sys2Proof.Machine
end

section
/-! SUPPORT. The bytes of the three records in storage, bit by bit (spec rules R70 to R72), and the gate predicate on a
slot that SEG_ENCODE wrote (rule R75). -/

namespace Sys2Proof.Machine

open Sys2Proof

/-- Bytes 0 and 1 of the truncated limit are those of the limit (rule R69). -/
theorem byteOf_limit20 (src : SegSource) {i : Nat} (hi : i < 2) : byteOf (limit20 src) i = byteOf src.limit i := by
  rw [byteOf, limit20, extract_extract _ _ _ _ _ (by omega), Nat.zero_add, byteOf]

/-- Byte 6 of a segment descriptor but for its reserved bits, which are `segByte6_rsv` (rule R70). -/
theorem segByte6_fields (src : SegSource) (rsv : BitVec 2) :
    (segByte6 src rsv).extractLsb' 0 4 = src.limit.extractLsb' 16 4 ∧
    (segByte6 src rsv).extractLsb' 6 1 = src.db ∧ (segByte6 src rsv).extractLsb' 7 1 = src.g := by
  refine ⟨?limit, ?db, ?g⟩
  case limit => exact BitVec.extractLsb'_append_eq_right.trans (extract_extract src.limit 0 16 20 4 (by decide))
  case db =>
    exact (BitVec.extractLsb'_append_eq_of_le (by decide)).trans <|
      (BitVec.extractLsb'_append_eq_of_le (by decide)).trans BitVec.extractLsb'_append_eq_right
  case g =>
    exact (BitVec.extractLsb'_append_eq_of_le (by decide)).trans <|
      (BitVec.extractLsb'_append_eq_of_le (by decide)).trans BitVec.extractLsb'_append_eq_left

/-- Byte 5 of a gate is its word's `F0` (rules R66 and R71). -/
theorem gateByte5_eq_gateF0 (src : GateSource) : gateByte5 src = gateF0 src := rfl

/-- Settles O6: the bytes are `segBytes`, byte 5 the access byte and byte 6 with the reserved bits the policy says. -/
theorem segEncodeWritesTheSegmentDescriptor : Obligations.SegEncodeWritesTheSegmentDescriptor := by
  intro dst src s hm hs
  have hold : s.readByte (dst + 6#32) = s.mem.read (dst.toNat + 6) :=
    congrArg s.mem.read (toNat_add_ofNat hs.aligned (by decide))
  have hread : ∀ k (hk : k < 8), (segBody dst src s).mem.read (dst.toNat + k) =
      (segBytes src (reservedBits s.segB6Rsvd (s.mem.read (dst.toNat + 6))))[k]'hk := by
    rw [← hold]
    exact fun k hk => commandBody_read (.segEncode dst src) hm hs.aligned hk
  have h5 : (segBody dst src s).mem.read (dst.toNat + 5) = accessByte src := hread 5 (by decide)
  have h6 : (segBody dst src s).mem.read (dst.toNat + 6) = segByte6 src _ := hread 6 (by decide)
  obtain ⟨hlimit, hdb, hg⟩ := segByte6_fields src (reservedBits s.segB6Rsvd (s.mem.read (dst.toNat + 6)))
  refine ⟨(segBody dst src s).mem, exec_of_admits_eq (.segEncode dst src) hs,
    (hread 0 (by decide)).trans (byteOf_limit20 src (by decide)),
    (hread 1 (by decide)).trans (byteOf_limit20 src (by decide)),
    hread 2 (by decide), hread 3 (by decide), hread 4 (by decide), ?byte5, ?byte6, hread 7 (by decide),
    fun a ha => commandBody_frame (.segEncode dst src) s hs.aligned ha⟩
  case byte5 =>
    rw [h5, accessByte_eq_flagByte]
    exact flagByte_fields ..
  case byte6 =>
    rw [h6, segByte6_rsv]
    exact ⟨hlimit, fun hzero => by rw [hzero, reservedBits], fun hpres => by rw [hpres, reservedBits], hdb, hg⟩

/-- Settles O7: the bytes are `gateBytes`, byte 5 the flags. -/
theorem gateEncodeWritesTheGate : Obligations.GateEncodeWritesTheGate := by
  intro dst src s hm hs
  have hread : ∀ k (hk : k < 8), (gateBody dst src s).mem.read (dst.toNat + k) = (gateBytes src)[k]'hk :=
    fun k hk => commandBody_read (.gateEncode dst src) hm hs.aligned hk
  have h5 : (gateBody dst src s).mem.read (dst.toNat + 5) = gateF0 src :=
    (hread 5 (by decide)).trans (gateByte5_eq_gateF0 src)
  refine ⟨(gateBody dst src s).mem, exec_of_admits_eq (.gateEncode dst src) hs, hread 0 (by decide),
    hread 1 (by decide), hread 2 (by decide), hread 3 (by decide), hread 4 (by decide), ?byte5, hread 6 (by decide),
    hread 7 (by decide), fun a ha => commandBody_frame (.gateEncode dst src) s hs.aligned ha⟩
  case byte5 =>
    rw [h5]
    exact gateF0_fields src

/-- Settles O8: the bytes are `tdescBytes`; bytes 6 and 7 of the slot are outside the footprint. -/
theorem tdescEncodeWritesTheTableDescriptor : Obligations.TdescEncodeWritesTheTableDescriptor := by
  intro dst src s hm hs
  have hread : ∀ k (hk : k < 6), (tdescBody dst src s).mem.read (dst.toNat + k) = (tdescBytes src)[k]'hk :=
    fun k hk => commandBody_read (.tdescEncode dst src) hm hs.aligned hk
  have hframe : ∀ a, ¬ inFootprint dst 6 a → (tdescBody dst src s).mem.read a = s.mem.read a :=
    fun a ha => commandBody_frame (.tdescEncode dst src) s hs.aligned ha
  exact ⟨(tdescBody dst src s).mem, exec_of_admits_eq (.tdescEncode dst src) hs, hread 0 (by decide),
    hread 1 (by decide), hread 2 (by decide), hread 3 (by decide), hread 4 (by decide), hread 5 (by decide),
    ⟨hframe _ (by simp [inFootprint]), hframe _ (by simp [inFootprint])⟩, hframe⟩

/-- A 32-bit interrupt gate on the selector of entry 1 asks that entry to be present code and nothing else (rule R75). -/
theorem interruptGateSource_wf (off : Word) (B D C : Slot) :
    (interruptGateSource off 0x0008#16).wf [B, D, C] = D.isPresentCode := by
  simp [GateSource.wf, GateSource.storageFlagOk, GateSource.selectorOk, selectedEntry, interruptGateSource]

/-- A segment descriptor is present code when its source has `p` and `x` set (rules R70 and R75). -/
theorem segSlot_isPresentCode (src : SegSource) (rsv : BitVec 2) :
    (segSlot src rsv).isPresentCode = (src.p == 1#1 && src.x == 1#1) := by
  have hbits : ∀ p dpl x dc rw a, ((flagByte p dpl 1#1 x dc rw a).getLsbD 7 && (flagByte p dpl 1#1 x dc rw a).getLsbD 4 &&
      (flagByte p dpl 1#1 x dc rw a).getLsbD 3) = (p == 1#1 && x == 1#1) := by decide
  exact hbits src.p src.dpl src.x src.dc src.rw src.a

/-- Settles O19: of the two sources `kcode`'s has `x` set and `kdata`'s has not. -/
theorem kernelCodeSlotMeetsTheGatePredicate : Obligations.KernelCodeSlotMeetsTheGatePredicate := by
  intro dst off s B C hm hs
  have hwf : ∀ src, (interruptGateSource off 0x0008#16).wf [B, (segBody dst src s).advance.readSlot dst, C] =
      (src.p == 1#1 && src.x == 1#1) := by
    intro src
    rw [interruptGateSource_wf, State.advance_readSlot, segBody_readSlot src hm hs.aligned, segSlot_isPresentCode]
  exact ⟨⟨_, exec_of_admits (kcode dst) hs, hwf kernelCodeSource⟩,
    ⟨_, exec_of_admits (kdata dst) hs, hwf kernelDataSource⟩⟩

end Sys2Proof.Machine
end

section
/-! SUPPORT. What an assembled text holds: its words are encodings, and the ports of a `segenc` line are the numbers written
for its keys (spec rules R68, R76 and R77). -/

namespace Sys2Proof.Machine

open Sys2Proof

/-- A computation in sequence answers exactly when both of its parts do. -/
theorem except_bind_eq_ok {ε α β : Type} {x : Except ε α} {f : α → Except ε β} {b : β} :
    x >>= f = .ok b ↔ ∃ a, x = .ok a ∧ f a = .ok b := by
  cases x <;> simp [bind, Except.bind]

theorem except_pure_eq_ok {ε α : Type} {a b : α} : (pure a : Except ε α) = .ok b ↔ a = b := by
  simp [pure, Except.pure]

/-- Settles O43: a word among the items is the encoding of an assembled command. -/
theorem assembledWordsDecode : Obligations.AssembledWordsDecode := by
  intro symbols listing items W h hW
  obtain ⟨lines, -, hitems⟩ := except_bind_eq_ok.mp h
  obtain rfl := except_pure_eq_ok.mp hitems
  obtain ⟨item, -, hitem⟩ := List.mem_map.mp hW
  cases item with
  | env e => cases hitem
  | command i =>
    injection hitem with hitem
    exact ⟨i, hitem ▸ decodeOfEncodeIsTheCommand i⟩

/-- A value that is fitted to a port is the port's value (rule R76). -/
theorem toNat_of_fit {w n : Nat} {v : BitVec w} (h : fit w n = .ok v) : n = v.toNat := by
  unfold fit at h
  split at h
  · injection h with h
    rw [← h, BitVec.toNat_ofNat, Nat.mod_eq_of_lt ‹_›]
  · cases h

theorem lookup_of_requiredKey {kvs : List (Text × Nat)} {key : String} {w : Nat} {v : BitVec w}
    (h : requiredKey kvs key w = .ok v) : kvs.lookup key.toList = some v.toNat := by
  unfold requiredKey at h
  split at h
  · cases h
  · rename_i n hn
    rw [hn, toNat_of_fit h]

theorem lookup_of_optionalKey {kvs : List (Text × Nat)} {key : String} {w : Nat} {v : BitVec w}
    (h : optionalKey kvs key w = .ok v) : (kvs.lookup key.toList).getD 0 = v.toNat := by
  unfold optionalKey at h
  split at h
  · rename_i hn
    injection h with h
    simp [hn, ← h]
  · rename_i n hn
    rw [hn, Option.getD_some, toNat_of_fit h]

/-- Settles O44: `segOperands` reads each port with `requiredKey`, `a` with `optionalKey`. -/
theorem assembledSegmentOperandsAreTheValuesWritten : Obligations.AssembledSegmentOperandsAreTheValuesWritten := by
  intro ops kvs src hkeys h
  simp only [segOperands, hkeys, except_bind_eq_ok, except_pure_eq_ok, Except.ok.injEq, exists_eq_left'] at h
  obtain ⟨base, hbase, limit, hlimit, p, hp, dpl, hdpl, x, hx, dc, hdc, rw', hrw, a, ha, g, hg, db, hdb, rfl⟩ := h
  exact ⟨lookup_of_requiredKey hbase, lookup_of_requiredKey hlimit, lookup_of_requiredKey hp, lookup_of_requiredKey hdpl,
    lookup_of_requiredKey hx, lookup_of_requiredKey hdc, lookup_of_requiredKey hrw, lookup_of_optionalKey ha,
    lookup_of_requiredKey hg, lookup_of_requiredKey hdb⟩

end Sys2Proof.Machine
end

section
/-! SUPPORT. What a segment descriptor's slot says of its source: SEG_FIELDS gives the ports back, an input holds its own bits
and no others, and the kernel descriptors' bytes (spec rules R102 to R106). -/

namespace Sys2Proof.Machine

open Sys2Proof

/-- An admitted SEG_ENCODE completes, with `segSlot` in its slot (rules R70 and R100). -/
theorem exec_segEncode_slot {dst : Word} (src : SegSource) {s : State} (hm : s.mem.wf = true) (hs : s.admits dst 8) :
    ∃ t, exec (.segEncode dst src) s = .next t ∧
      t.readSlot dst = segSlot src (reservedBits s.segB6Rsvd (s.readSlot dst).b6) :=
  ⟨_, exec_of_admits (.segEncode dst src) hs, segBody_readSlot src hm hs.aligned⟩

/-- The policy has nothing but 0 to take from a zero byte. -/
theorem reservedBits_zero (policy : SegB6Rsvd) : reservedBits policy 0x00#8 = 0#2 := by
  cases policy <;> rfl

/-- Settles O10: either policy leaves 0 in the reserved bits of a zero slot, and the two slots are then closed terms. -/
theorem kernelDescriptorsHaveTheirBytes : Obligations.KernelDescriptorsHaveTheirBytes := by
  intro dst s hm hs hzero
  have hslot : ∀ src, ∃ t, exec (.segEncode dst src) s = .next t ∧ t.readSlot dst = segSlot src 0#2 := by
    intro src
    have h := exec_segEncode_slot src hm hs
    rwa [hzero, reservedBits_zero] at h
  have hcode : segSlot kernelCodeSource 0#2 = ⟨0xFF#8, 0xFF#8, 0x00#8, 0x00#8, 0x00#8, 0x9A#8, 0xCF#8, 0x00#8⟩ := by decide
  have hdata : segSlot kernelDataSource 0#2 = ⟨0xFF#8, 0xFF#8, 0x00#8, 0x00#8, 0x00#8, 0x92#8, 0xCF#8, 0x00#8⟩ := by decide
  exact ⟨hcode ▸ hslot kernelCodeSource, hdata ▸ hslot kernelDataSource⟩

/-- Settles O15: the policy takes from the byte 6 it left the bits it put there (`reservedBits_segByte6`). -/
theorem segEncodeIsIdempotent : Obligations.SegEncodeIsIdempotent := by
  intro dst src s u hms hs hmu hu hpolicy
  obtain ⟨t, ht, htslot⟩ := exec_segEncode_slot src hms hs
  obtain ⟨v, hv, hvslot⟩ := exec_segEncode_slot src hmu hu
  refine ⟨t, ht, fun hkept => ⟨v, hv, ?_⟩⟩
  rw [hvslot, hkept, htslot, hpolicy]
  exact congrArg (segSlot src) (reservedBits_segByte6 _ src _)

/-! The fields of the slot. -/

/-- The fields of a descriptor made of `src`, with `rsv` in the reserved bits (rule R103). -/
def segFieldsOf (src : SegSource) (rsv : BitVec 2) : SegFields where
  limit20 := limit20 src
  base    := src.base
  a       := src.a
  rw      := src.rw
  dc      := src.dc
  x       := src.x
  sys     := 1#1
  dpl     := src.dpl
  p       := src.p
  rsv     := rsv
  db      := src.db
  g       := src.g

/-- Little-endian: the bytes of a word, the last one highest, are the word (rule R41). -/
theorem word_of_bytes (v : Word) : byteOf v 3 ++ byteOf v 2 ++ byteOf v 1 ++ byteOf v 0 = v := by
  simp only [byteOf]
  iterate 3 rw [BitVec.extractLsb'_append_extractLsb'_eq_extractLsb' (by decide)]
  exact BitVec.extractLsb'_eq_self

/-- The truncated limit is its high nibble, which byte 6 holds, and two bytes (rules R69 and R70). -/
theorem limit20_of_bytes (src : SegSource) (rsv : BitVec 2) :
    (segByte6 src rsv).extractLsb' 0 4 ++ byteOf (limit20 src) 1 ++ byteOf (limit20 src) 0 = limit20 src := by
  have hnibble : (segByte6 src rsv).extractLsb' 0 4 = (limit20 src).extractLsb' 16 4 := BitVec.extractLsb'_append_eq_right
  simp only [hnibble, byteOf]
  iterate 2 rw [BitVec.extractLsb'_append_extractLsb'_eq_extractLsb' (by decide)]
  exact BitVec.extractLsb'_eq_self

/-- SEG_FIELDS inverts SEG_ENCODE's bytes (rules R102 and R103). -/
theorem segFields_segSlot (src : SegSource) (rsv : BitVec 2) : segFields (segSlot src rsv) = segFieldsOf src rsv := by
  obtain ⟨ha, hrw, hdc, hx, hsys, hdpl, hp⟩ := flagByte_fields src.p src.dpl 1#1 src.x src.dc src.rw src.a
  obtain ⟨-, hdb, hg⟩ := segByte6_fields src rsv
  simp only [segFields, segSlot, segFieldsOf, accessByte_eq_flagByte, word_of_bytes, limit20_of_bytes, ha, hrw, hdc, hx, hsys,
    hdpl, hp, segByte6_rsv, hdb, hg]

/-- A limit that meets `WF_seg` loses nothing to the truncation (rules R69 and R75). -/
theorem limit20_toNat_of_wf {src : SegSource} (h : src.wf = true) : (limit20 src).toNat = src.limit.toNat := by
  have hfits : src.limit.toNat < 2 ^ 20 := of_decide_eq_true h
  rw [limit20, BitVec.extractLsb'_toNat, Nat.shiftRight_zero, Nat.mod_eq_of_lt hfits]

/-- Settles O12: `segFields_segSlot`, whose `rsv` is 0 under `zero`. -/
theorem segmentFieldsRoundTrip : Obligations.SegmentFieldsRoundTrip := by
  intro dst src s hm hs
  obtain ⟨t, ht, hslot⟩ := exec_segEncode_slot src hm hs
  refine ⟨t, ht, ?_⟩
  rw [hslot, segFields_segSlot]
  exact ⟨rfl, limit20_toNat_of_wf, rfl, rfl, rfl, rfl, rfl, rfl, rfl, rfl, rfl, rfl,
    fun hzero => by rw [hzero, segFieldsOf, reservedBits]⟩

/-! The bits that hold each input (rule R104). -/

/-- Changing one input of the access byte changes no bit outside that input's mask. -/
theorem accessByte_agree (src : SegSource) :
    (∀ a, accessByte src &&& ~~~0x01#8 = accessByte { src with a := a } &&& ~~~0x01#8) ∧
    (∀ rw, accessByte src &&& ~~~0x02#8 = accessByte { src with rw := rw } &&& ~~~0x02#8) ∧
    (∀ dc, accessByte src &&& ~~~0x04#8 = accessByte { src with dc := dc } &&& ~~~0x04#8) ∧
    (∀ x, accessByte src &&& ~~~0x08#8 = accessByte { src with x := x } &&& ~~~0x08#8) ∧
    (∀ dpl, accessByte src &&& ~~~0x60#8 = accessByte { src with dpl := dpl } &&& ~~~0x60#8) ∧
    (∀ p, accessByte src &&& ~~~0x80#8 = accessByte { src with p := p } &&& ~~~0x80#8) := by
  simp only [accessByte]
  generalize src.p = p, src.dpl = dpl, src.x = x, src.dc = dc, src.rw = rw, src.a = a
  revert p dpl x dc rw a
  decide

/-- Changing one input of byte 6 changes no bit outside that input's mask; of the limit the byte holds a nibble. -/
theorem segByte6_agree (src : SegSource) (rsv : BitVec 2) :
    (∀ db, segByte6 src rsv &&& ~~~0x40#8 = segByte6 { src with db := db } rsv &&& ~~~0x40#8) ∧
    (∀ g, segByte6 src rsv &&& ~~~0x80#8 = segByte6 { src with g := g } rsv &&& ~~~0x80#8) ∧
    (∀ limit, segByte6 src rsv &&& ~~~0x0F#8 = segByte6 { src with limit := limit } rsv &&& ~~~0x0F#8) := by
  have hfields : ∀ (g db : BitVec 1) (rsv : BitVec 2) (nibble : BitVec 4),
      (∀ v : BitVec 1, (g ++ db ++ rsv ++ nibble) &&& ~~~0x40#8 = (g ++ v ++ rsv ++ nibble) &&& ~~~0x40#8) ∧
      (∀ v : BitVec 1, (g ++ db ++ rsv ++ nibble) &&& ~~~0x80#8 = (v ++ db ++ rsv ++ nibble) &&& ~~~0x80#8) ∧
      (∀ v : BitVec 4, (g ++ db ++ rsv ++ nibble) &&& ~~~0x0F#8 = (g ++ db ++ rsv ++ v) &&& ~~~0x0F#8) := by decide
  obtain ⟨hdb, hg, hnibble⟩ := hfields src.g src.db rsv ((limit20 src).extractLsb' 16 4)
  exact ⟨hdb, hg, fun _ => hnibble _⟩

/-- Any two bytes agree outside all of their bits. -/
theorem agree_outside_allOnes (v w : Byte) : v &&& ~~~0xFF#8 = w &&& ~~~0xFF#8 :=
  (BitVec.and_zero (x := v)).trans (BitVec.and_zero (x := w)).symm

/-- Slots that differ in byte 5 alone agree where those two bytes do. -/
theorem slotsAgreeOutside_of_b5 {B : Slot} {m v : Byte} (h : B.b5 &&& ~~~m = v &&& ~~~m) :
    slotsAgreeOutside ⟨0#8, 0#8, 0#8, 0#8, 0#8, m, 0#8, 0#8⟩ B { B with b5 := v } :=
  ⟨rfl, rfl, rfl, rfl, rfl, h, rfl, rfl⟩

/-- Slots that differ in byte 6 alone agree where those two bytes do. -/
theorem slotsAgreeOutside_of_b6 {B : Slot} {m v : Byte} (h : B.b6 &&& ~~~m = v &&& ~~~m) :
    slotsAgreeOutside ⟨0#8, 0#8, 0#8, 0#8, 0#8, 0#8, m, 0#8⟩ B { B with b6 := v } :=
  ⟨rfl, rfl, rfl, rfl, rfl, rfl, h, rfl⟩

/-- Two bases leave slots that differ in bytes 2, 3, 4 and 7 at most. -/
theorem segSlot_agree_base (src : SegSource) (rsv : BitVec 2) (base : Word) :
    slotsAgreeOutside ⟨0#8, 0#8, 0xFF#8, 0xFF#8, 0xFF#8, 0#8, 0#8, 0xFF#8⟩ (segSlot src rsv)
      (segSlot { src with base := base } rsv) :=
  ⟨rfl, rfl, agree_outside_allOnes _ _, agree_outside_allOnes _ _, agree_outside_allOnes _ _, rfl, rfl,
    agree_outside_allOnes _ _⟩

/-- Two limits leave slots that differ in bytes 0 and 1 and the low nibble of byte 6 at most. -/
theorem segSlot_agree_limit (src : SegSource) (rsv : BitVec 2) (limit : Word) :
    slotsAgreeOutside ⟨0xFF#8, 0xFF#8, 0#8, 0#8, 0#8, 0#8, 0x0F#8, 0#8⟩ (segSlot src rsv)
      (segSlot { src with limit := limit } rsv) := by
  obtain ⟨-, -, hlow⟩ := segByte6_agree src rsv
  exact ⟨agree_outside_allOnes _ _, agree_outside_allOnes _ _, rfl, rfl, rfl, rfl, hlow limit, rfl⟩

/-- An input whose change gives the source `new` changes the slot within the mask `m`, and does change it where SEG_FIELDS
gives another `field`. -/
theorem segSlot_of_changed {α : Type} (field : SegFields → α) {src src' new : SegSource} {rsv : BitVec 2} {m : Slot}
    (h : src' = new) (hagree : slotsAgreeOutside m (segSlot src rsv) (segSlot new rsv)) :
    slotsAgreeOutside m (segSlot src rsv) (segSlot src' rsv) ∧
      (field (segFieldsOf src' rsv) ≠ field (segFieldsOf src rsv) → segSlot src rsv ≠ segSlot src' rsv) := by
  refine ⟨h ▸ hagree, fun hne heq => hne ?_⟩
  rw [← segFields_segSlot, ← segFields_segSlot, heq]

/-- Settles O18: `accessByte_agree` and `segByte6_agree` for the inputs of bytes 5 and 6, whole bytes for the base and the
limit; SEG_FIELDS tells the two slots apart. -/
theorem segmentFieldsAreIndependent : Obligations.SegmentFieldsAreIndependent := by
  intro dst src src' s hm hs
  obtain ⟨t, ht, hslot⟩ := exec_segEncode_slot src hm hs
  obtain ⟨t', ht', hslot'⟩ := exec_segEncode_slot src' hm hs
  refine ⟨t, t', ht, ht', ?_⟩
  rw [hslot, hslot']
  generalize reservedBits s.segB6Rsvd (s.readSlot dst).b6 = rsv
  obtain ⟨ha, hrw, hdc, hx, hdpl, hp⟩ := accessByte_agree src
  obtain ⟨hdb, hg, -⟩ := segByte6_agree src rsv
  exact ⟨fun h => segSlot_of_changed SegFields.a h (slotsAgreeOutside_of_b5 (ha _)),
    fun h => segSlot_of_changed SegFields.rw h (slotsAgreeOutside_of_b5 (hrw _)),
    fun h => segSlot_of_changed SegFields.dc h (slotsAgreeOutside_of_b5 (hdc _)),
    fun h => segSlot_of_changed SegFields.x h (slotsAgreeOutside_of_b5 (hx _)),
    fun h => segSlot_of_changed SegFields.dpl h (slotsAgreeOutside_of_b5 (hdpl _)),
    fun h => segSlot_of_changed SegFields.p h (slotsAgreeOutside_of_b5 (hp _)),
    fun h => segSlot_of_changed SegFields.db h (slotsAgreeOutside_of_b6 (hdb _)),
    fun h => segSlot_of_changed SegFields.g h (slotsAgreeOutside_of_b6 (hg _)),
    fun h => segSlot_of_changed SegFields.base h (segSlot_agree_base src rsv _),
    fun h => segSlot_of_changed SegFields.limit20 h (segSlot_agree_limit src rsv _)⟩

end Sys2Proof.Machine
end

section
/-! SUPPORT. What a gate's slot says of its source: GATE_FIELDS gives the ports back, and the exception gate's bytes (spec
rules R120 to R125). -/

namespace Sys2Proof.Machine

open Sys2Proof

/-- An admitted GATE_ENCODE completes, with `gateSlot` in its slot (rules R71 and R120). -/
theorem exec_gateEncode_slot {dst : Word} (src : GateSource) {s : State} (hm : s.mem.wf = true) (hs : s.admits dst 8) :
    ∃ t, exec (.gateEncode dst src) s = .next t ∧ t.readSlot dst = gateSlot src :=
  ⟨_, exec_of_admits (.gateEncode dst src) hs, gateBody_readSlot src hm hs.aligned⟩

/-- The exception gate's slot: of its bytes only those of the handler's offset are not constants (rule R125). -/
theorem gateSlot_exceptionGate (h : Word) :
    gateSlot (interruptGateSource h kernelCodeSelector) =
      ⟨h.extractLsb' 0 8, h.extractLsb' 8 8, 0x08#8, 0x00#8, 0x00#8, 0x8E#8, h.extractLsb' 16 8, h.extractLsb' 24 8⟩ := by
  have hselLow : byteOf (interruptGateSource h kernelCodeSelector).sel 0 = 0x08#8 :=
    (by decide : byteOf kernelCodeSelector 0 = 0x08#8)
  have hselHigh : byteOf (interruptGateSource h kernelCodeSelector).sel 1 = 0x00#8 :=
    (by decide : byteOf kernelCodeSelector 1 = 0x00#8)
  have hflags : gateByte5 (interruptGateSource h kernelCodeSelector) = 0x8E#8 :=
    (by decide : (1#1 ++ 0#2 ++ 0#1 ++ 0xE#4 : Byte) = 0x8E#8)
  rw [gateSlot, hselLow, hselHigh, hflags]
  rfl

/-- Settles O11: `gateSlot_exceptionGate`. -/
theorem exceptionGateHasItsBytes : Obligations.ExceptionGateHasItsBytes := by
  intro dst h s hm hs
  rw [← gateSlot_exceptionGate]
  exact exec_gateEncode_slot (interruptGateSource h kernelCodeSelector) hm hs

/-- Little-endian: the two bytes of a half-word, the second one highest, are the half-word (rule R41). -/
theorem half_of_bytes (v : Half) : byteOf v 1 ++ byteOf v 0 = v := by
  simp only [byteOf]
  rw [BitVec.extractLsb'_append_extractLsb'_eq_extractLsb' (by decide)]
  exact BitVec.extractLsb'_eq_self

/-- GATE_FIELDS inverts GATE_ENCODE's bytes, and finds 0 in the reserved byte (rules R121 to R123). -/
theorem gateFields_gateSlot (src : GateSource) :
    gateFields (gateSlot src) = ⟨src.off, src.sel, 0x00#8, src.kind, src.s, src.dpl, src.p⟩ := by
  obtain ⟨hkind, hflag, hdpl, hp⟩ := gateF0_fields src
  simp only [gateFields, gateSlot, gateByte5_eq_gateF0, word_of_bytes, half_of_bytes, hkind, hflag, hdpl, hp]

/-- Settles O13: `gateFields_gateSlot`. -/
theorem gateFieldsRoundTrip : Obligations.GateFieldsRoundTrip := by
  intro dst src s hm hs
  rw [← gateFields_gateSlot]
  obtain ⟨t, ht, hslot⟩ := exec_gateEncode_slot src hm hs
  exact ⟨t, ht, congrArg gateFields hslot⟩

end Sys2Proof.Machine
end

section
/-! SUPPORT. What a table descriptor's slot says of its source: TDESC_FIELDS gives the ports back, and the slot's last two
bytes are the old ones (spec rules R140 and R141). -/

namespace Sys2Proof.Machine

open Sys2Proof

/-- The slot TDESC_ENCODE leaves where `old` stood: six bytes of the operands, bytes 6 and 7 kept (rules R72 and R140). -/
def tdescSlot (src : TdescSource) (old : Slot) : Slot :=
  ⟨byteOf src.size1 0, byteOf src.size1 1, byteOf src.base 0, byteOf src.base 1, byteOf src.base 2, byteOf src.base 3,
    old.b6, old.b7⟩

/-- TDESC_ENCODE leaves its slot with the old bytes 6 and 7 (rules R72 and R140). -/
theorem tdescBody_readSlot {dst : Word} (src : TdescSource) {s : State} (hm : s.mem.wf = true)
    (h : dst.toNat % 8 = 0) : (tdescBody dst src s).readSlot dst = tdescSlot src (s.readSlot dst) := by
  have hread : ∀ k (hk : k < 6), (tdescBody dst src s).mem.read (dst.toNat + k) = (tdescBytes src)[k]'hk :=
    fun k hk => commandBody_read (.tdescEncode dst src) hm h hk
  have hkept : ∀ k, 6 ≤ k → (tdescBody dst src s).mem.read (dst.toNat + k) = s.mem.read (dst.toNat + k) :=
    fun k hk => commandBody_frame (.tdescEncode dst src) s h fun hfoot => by
      have hlt : dst.toNat + k < dst.toNat + 6 := hfoot.2
      omega
  have h0 : (tdescBody dst src s).mem.read dst.toNat = byteOf src.size1 0 := hread 0 (by decide)
  rw [readSlot_eq h, readSlot_eq h, h0, hread 1 (by decide), hread 2 (by decide), hread 3 (by decide),
    hread 4 (by decide), hread 5 (by decide), hkept 6 (by decide), hkept 7 (by decide)]
  rfl

/-- An admitted TDESC_ENCODE completes, with `tdescSlot` in its slot (rules R72 and R140). -/
theorem exec_tdescEncode_slot {dst : Word} (src : TdescSource) {s : State} (hm : s.mem.wf = true) (hs : s.admits dst 6) :
    ∃ t, exec (.tdescEncode dst src) s = .next t ∧ t.readSlot dst = tdescSlot src (s.readSlot dst) :=
  ⟨_, exec_of_admits (.tdescEncode dst src) hs, tdescBody_readSlot src hm hs.aligned⟩

/-- TDESC_FIELDS inverts TDESC_ENCODE's bytes, whatever the last two bytes are (rule R141). -/
theorem tdescFields_tdescSlot (src : TdescSource) (old : Slot) : tdescFields (tdescSlot src old) = src := by
  simp only [tdescFields, tdescSlot, word_of_bytes, half_of_bytes]

/-- Encoding into a slot that holds the source's bytes leaves that slot (rules R105 and R141). -/
theorem tdescSlot_tdescSlot (src : TdescSource) (old : Slot) : tdescSlot src (tdescSlot src old) = tdescSlot src old :=
  rfl

/-- Settles O14: `tdescFields_tdescSlot` for the fields, `tdescSlot_tdescSlot` for the second run. -/
theorem tableDescriptorFieldsRoundTrip : Obligations.TableDescriptorFieldsRoundTrip := by
  intro dst src s hm hs
  obtain ⟨t, ht, htslot⟩ := exec_tdescEncode_slot src hm hs
  refine ⟨t, ht, ?fields, fun u hmu hu hkept => ?again⟩
  case fields => rw [htslot, tdescFields_tdescSlot]
  case again =>
    obtain ⟨v, hv, hvslot⟩ := exec_tdescEncode_slot src hmu hu
    exact ⟨v, hv, by rw [hvslot, hkept, htslot, tdescSlot_tdescSlot]⟩

end Sys2Proof.Machine
end

section
/-! SUPPORT. The faults of a command: which one admission records, that nothing else changes, and that a fault is final (spec
rules R161 to R165 and R196). -/

namespace Sys2Proof.Machine

open Sys2Proof

/-- Admission's faults, each with the information of rule R161. -/
theorem admission_fault_cases {W : Command} {dst : Word} {n : Nat} {s : State} {f : ModelFault}
    (h : admission W dst n s = some f) :
    f = .interruptsEnabled W ∨ f = .slotMisaligned dst ∨ f = .slotOutOfStorage dst ∨ f = .writeToActiveTable dst := by
  unfold admission at h
  split_ifs at h
  · exact .inl (Option.some.inj h).symm
  · exact .inr (.inl (Option.some.inj h).symm)
  · exact .inr (.inr (.inl (Option.some.inj h).symm))
  · exact .inr (.inr (.inr (Option.some.inj h).symm))

/-- Settles O21: the second test of rule R162 fails. -/
theorem commandWithInterruptsEnabledFaults : Obligations.CommandWithInterruptsEnabledFaults :=
  fun _ _ hIF => exec_of_admission (admission_of_interrupts _ _ _ hIF)

/-- Settles O22: the fifth test of rule R162 is the first to fail. -/
theorem commandIntoActiveTableFaults : Obligations.CommandIntoActiveTableFaults :=
  fun i _ hIF haligned hstorage hactive =>
    exec_of_admission (admission_of_active _ (footprintOf_le i) hIF haligned hstorage hactive)

/-- No environment step writes the fault record. -/
theorem execEnv_fault {e : EnvStep} {s t : State} (h : execEnv e s = .next t) : t.fault = s.fault := by
  obtain ⟨-, rfl⟩ | ⟨-, rfl⟩ | ⟨-, rfl⟩ | ⟨-, rfl⟩ | ⟨-, rfl⟩ | ⟨_, _, -, rfl⟩ | ⟨_, _, -, -, rfl⟩ | ⟨_, _, -, -, rfl⟩ :=
    execEnv_cases h <;> rfl

/-- A fault that a command records is one of admission's: its body never faults (rule R100). -/
theorem exec_fault_cases {i : Instr} {s t : State} {f : ModelFault} (hs : s.fault = none) (h : exec i s = .next t)
    (ht : t.fault = some f) :
    f = .interruptsEnabled (encode i) ∨ f = .slotMisaligned i.dst ∨ f = .slotOutOfStorage i.dst ∨
      f = .writeToActiveTable i.dst := by
  obtain ⟨f', hadm, rfl⟩ | ⟨-, rfl⟩ := exec_cases h
  · obtain rfl : f' = f := Option.some.inj ht
    exact admission_fault_cases hadm
  · have hkept := (commandBody_sameEnvironment i s).2.2
    rw [State.advance_fault, hkept, hs] at ht
    cases ht

/-- Of the steps from a state without a fault, only a word that faults sets the record, and it writes nothing else (rule
R165). -/
theorem step_fault_precise {s t : State} {f : ModelFault} (hs : s.fault = none) (h : step s = .next t)
    (ht : t.fault = some f) : t = { s with turns := s.turns.tail, fault := some f } := by
  have hclear : t.fault ≠ s.fault := by simp [hs, ht]
  obtain ⟨-, ⟨addr, rest, -, -, rfl⟩ | ⟨it, -, -, hrun⟩⟩ := step_next_cases h
  · exact absurd rfl hclear
  · obtain ⟨W, f', -, rfl⟩ | ⟨W, i, -, -, -, rfl⟩ | ⟨e, -, he⟩ := hrun
    · obtain rfl : f' = f := Option.some.inj ht
      rfl
    · exact absurd rfl hclear
    · exact absurd (execEnv_fault he) hclear

/-- Settles O23: `exec_fault_cases`, `step_fault_precise`, and a recorded fault stops the machine. -/
theorem faultsArePreciseAndFinal : Obligations.FaultsArePreciseAndFinal :=
  ⟨fun _ _ _ _ => exec_fault_cases, fun _ _ _ => step_fault_precise, fun _ _ => step_of_fault,
    fun _ hfault hsucceeded => hfault hsucceeded.2⟩

/-- A word that matches no row of the opcode table is reserved (rules R68 and R79). -/
theorem wordIsReserved_of_no_row {W : Command} (h : ∀ r ∈ opcodeTable, W &&& r.mask ≠ r.pattern) : wordIsReserved W := by
  by_contra hcmd
  obtain ⟨r, hr, hcov⟩ := (covered_iff_not_reserved W).mpr hcmd
  exact h r hr ((covers_iff_mask r W).mp hcov)

/-- A word that matches a row is the encoding of a command, whose footprint is the row's (rules R44 and R79). -/
theorem exists_command_of_row {W : Command} {r : OpRow} {n : Nat}
    (hrow : (r, n) ∈ [(segRow, 8), (gateRow, 8), (tdescRow, 6)]) (hW : W &&& r.mask = r.pattern) :
    ∃ i, decode W = .ok i ∧ encode i = W ∧ footprintOf i = n := by
  have hcov := (covers_iff_mask r W).mpr hW
  simp only [List.mem_cons, List.not_mem_nil, or_false, Prod.mk.injEq] at hrow
  obtain ⟨rfl, rfl⟩ | ⟨rfl, rfl⟩ | ⟨rfl, rfl⟩ := hrow
  · exact ⟨_, decode_of_segRow hcov, encode_segPorts hcov, rfl⟩
  · exact ⟨_, decode_of_gateRow hcov, encode_gatePorts hcov, rfl⟩
  · exact ⟨_, decode_of_tdescRow hcov, encode_tdescPorts hcov, rfl⟩

theorem lowBits_eq_zero_iff (dst : Word) : dst.extractLsb' 0 3 = 0#3 ↔ dst.toNat % 8 = 0 := by
  rw [← aligned8_iff, aligned8, beq_iff_eq]

/-- Settles O20: a word of no row is reserved; any other is the encoding of a command, which admission decides. -/
theorem firstFailingTestRaisesItsFault : Obligations.FirstFailingTestRaisesItsFault := by
  intro s rest W hissues
  refine ⟨fun hnone => ?_, fun r n hrow hW => ?_⟩
  · exact (reservedWordsRaiseReservedCommand s rest W hissues).1 (wordIsReserved_of_no_row hnone)
  · obtain ⟨i, hdec, rfl, rfl⟩ := exists_command_of_row hrow hW
    have hdst : (encode i).extractLsb' 96 32 = i.dst := dstField_encode i
    have hn := footprintOf_le i
    simp only [stepRunsTheDecodedCommand s rest _ i hissues hdec, hdst, ne_eq, lowBits_eq_zero_iff]
    refine ⟨fun hIF => ?_, fun hIF hmis => ?_, fun hIF hal hout => ?_, fun hIF hal hin hact => ?_,
      fun hIF hal hin hfree => ?_⟩
    · exact exec_of_admission (admission_of_interrupts _ _ _ hIF)
    · exact exec_of_admission (admission_of_misaligned _ _ hIF hmis)
    · exact exec_of_admission (admission_of_outside _ hn hIF hal hout)
    · exact exec_of_admission (admission_of_active _ hn hIF hal hin hact)
    · obtain ⟨⟨hfault, -⟩, -⟩ := hissues
      exact ⟨_, exec_of_admits_eq i ⟨hIF, hal, hin, hfree⟩, hfault, rfl⟩

end Sys2Proof.Machine
end

section
/-! SUPPORT. The CPU primitives: what each writes, and that a halt is the last step (spec rules R24 and R166). -/

namespace Sys2Proof.Machine

open Sys2Proof

/-- The flags register with `IF` replaced, bit by bit (rule R24). -/
theorem replaceIF_bits (v : BitVec 32) (b : BitVec 1) :
    (replaceIF v b).getLsbD 9 = b.getLsbD 0 ∧ ∀ j, j ≠ 9 → (replaceIF v b).getLsbD j = v.getLsbD j := by
  refine ⟨?_, fun j => replaceIF_other v b⟩
  conv_rhs => rw [← replaceIF_IF v b, BitVec.getLsbD_extractLsb']
  rfl

theorem State.readInterruptEnable_eq (s : State) : s.readInterruptEnable = s.flags.getLsbD 9 := by
  have hbit : ∀ b : BitVec 1, (b == 1#1) = b.getLsbD 0 := by decide
  rw [State.readInterruptEnable, hbit, State.IF]
  simp [Config.ifBit]

/-- After halt-until-next-interrupt no step is enabled (rules R166 and R169). -/
theorem step_of_untilInterrupt {s : State} (hf : s.fault = none) (hh : s.halt = .untilInterrupt) :
    step s = .fault .haltedUntilInterrupt := by
  simp [step, stopped, hf, hh]

/-- After halt-permanently no step is enabled (rule R166). -/
theorem step_of_permanently {s : State} (hf : s.fault = none) (hh : s.halt = .permanently) :
    step s = .fault .haltedPermanently := by
  simp [step, stopped, hf, hh]

/-- Settles O32: the issued primitive is `execEnv`, and `replaceIF_bits` reads the flags register it writes. -/
theorem cpuPrimitivesHaveTheirEffects : Obligations.CpuPrimitivesHaveTheirEffects := by
  intro s rest
  refine ⟨fun hissues => ?_, fun hissues => ?_, fun hissues => ?_, fun hissues => ?_, fun hissues => ?_⟩
  · exact ⟨_, step_of_issues hissues, replaceIF_bits s.flags 0#1⟩
  · exact ⟨_, step_of_issues hissues, replaceIF_bits s.flags 1#1⟩
  · exact ⟨s.readInterruptEnable_eq, step_of_issues hissues⟩
  · have hfault := hissues.1.1
    exact ⟨_, step_of_issues hissues, rfl, step_of_untilInterrupt hfault rfl⟩
  · have hfault := hissues.1.1
    obtain ⟨hoff, hother⟩ := replaceIF_bits s.flags 0#1
    exact ⟨_, _, step_of_issues hissues, rfl, hoff, hother, step_of_permanently hfault rfl⟩

end Sys2Proof.Machine
end

section
/-! SUPPORT. The table loads: one shape for both, three answers, and the descriptor that decides between them (spec rules R167,
R183 and R184). -/

namespace Sys2Proof.Machine

open Sys2Proof

/-- The shape of both table loads: `built` is the load's own test of its table, `t` the state it leaves. -/
def tableLoad (slot : Word) (s : State) (built : Bool) (t : State) : StepResult :=
  if passesAddressSpace (readTableDescriptor slot s) then .refused (.tablePassesAddressSpace slot)
  else if !descriptorPlaced slot s || !built then .refused (.malformedTableDescriptor slot)
  else .next t

theorem tableLoad_of_passes {slot : Word} {s : State} (built : Bool) (t : State)
    (h : ¬ (readTableDescriptor slot s).base.toNat + (readTableDescriptor slot s).size1.toNat < addressCount) :
    tableLoad slot s built t = .refused (.tablePassesAddressSpace slot) := by
  have hpass : passesAddressSpace (readTableDescriptor slot s) = true := by
    rwa [← passesAddressSpace_eq_false_iff, Bool.not_eq_false] at h
  rw [tableLoad, if_pos hpass]

theorem tableLoad_of_malformed {slot : Word} {s : State} {built : Bool} (t : State)
    (hfits : (readTableDescriptor slot s).base.toNat + (readTableDescriptor slot s).size1.toNat < addressCount)
    (h : ¬ (descriptorPlaced slot s = true ∧ built = true)) :
    tableLoad slot s built t = .refused (.malformedTableDescriptor slot) := by
  have hbad : (!descriptorPlaced slot s || !built) = true := by
    rwa [← Bool.not_and, Bool.not_eq_true', ← Bool.not_eq_true, Bool.and_eq_true]
  simp [tableLoad, (passesAddressSpace_eq_false_iff _).mpr hfits, hbad]

theorem tableLoad_of_wellFormed {slot : Word} {s : State} {built : Bool} (t : State)
    (hfits : (readTableDescriptor slot s).base.toNat + (readTableDescriptor slot s).size1.toNat < addressCount)
    (h : descriptorPlaced slot s = true ∧ built = true) : tableLoad slot s built t = .next t := by
  simp [tableLoad, (passesAddressSpace_eq_false_iff _).mpr hfits, h.1, h.2]

/-- The step that issues `env.lgdt`, its tests on the state before the turn. -/
theorem step_of_lgdt {s : State} {rest : List Turn} {slot : Word} (h : s.issues rest (.env (.lgdt slot))) :
    step s = tableLoad slot s (segmentTableBuilt (readTableDescriptor slot s) s)
      { s with
        turns := rest, pc := s.pc + 1, gdtr := some (readTableDescriptor slot s),
        activeRegions := (s.activate (readTableDescriptor slot s)).activeRegions, reloadDue := true } :=
  step_of_issues h

/-- The step that issues `env.lidt`, its tests on the state before the turn. -/
theorem step_of_lidt {s : State} {rest : List Turn} {slot : Word} (h : s.issues rest (.env (.lidt slot))) :
    step s = tableLoad slot s (interruptTableBuilt (readTableDescriptor slot s) s)
      { s with
        turns := rest, pc := s.pc + 1, idtr := some (readTableDescriptor slot s),
        activeRegions := (s.activate (readTableDescriptor slot s)).activeRegions } :=
  step_of_issues h

/-- Settles O33: what the load tests is `segmentTableLoadable`, and it activates the table. -/
theorem segmentTableLoadActivatesTheTable : Obligations.SegmentTableLoadActivatesTheTable := by
  intro s rest slot hissues hwf r hmax hload
  have hfits : r.base.toNat + r.size1.toNat < addressCount := Nat.lt_succ_of_le hmax
  have htests := (segmentTableLoad_iff s hfits).mpr hload
  exact ⟨_, (step_of_lgdt hissues).trans (tableLoad_of_wellFormed _ hfits htests), State.activate_contains hwf r⟩

/-- Settles O34: what the load tests is `interruptTableLoadable`, and it activates the table. -/
theorem interruptTableLoadActivatesTheTable : Obligations.InterruptTableLoadActivatesTheTable := by
  intro s rest slot hissues hwf r hmax hload
  have hfits : r.base.toNat + r.size1.toNat < addressCount := Nat.lt_succ_of_le hmax
  have htests := (interruptTableLoad_iff s hfits).mpr hload
  exact ⟨_, (step_of_lidt hissues).trans (tableLoad_of_wellFormed _ hfits htests), State.activate_contains hwf r⟩

/-- Settles O35: a table that passes the last address fails the first test, and one that is not loadable the second. -/
theorem malformedTablesAreRefused : Obligations.MalformedTablesAreRefused := by
  intro s rest slot r
  have hpasses : 0xFFFFFFFF < r.base.toNat + r.size1.toNat → ¬ r.base.toNat + r.size1.toNat < addressCount :=
    fun h => Nat.not_lt.mpr h
  have hfits : r.base.toNat + r.size1.toNat ≤ 0xFFFFFFFF → r.base.toNat + r.size1.toNat < addressCount :=
    Nat.lt_succ_of_le
  refine ⟨fun hissues => ?_, fun hissues => ?_⟩
  · rw [step_of_lgdt hissues]
    exact ⟨fun hlast => tableLoad_of_passes _ _ (hpasses hlast), fun hmax hbad =>
      tableLoad_of_malformed _ (hfits hmax) (mt (segmentTableLoad_iff s (hfits hmax)).mp hbad)⟩
  · rw [step_of_lidt hissues]
    exact ⟨fun hlast => tableLoad_of_passes _ _ (hpasses hlast), fun hmax hbad =>
      tableLoad_of_malformed _ (hfits hmax) (mt (interruptTableLoad_iff s (hfits hmax)).mp hbad)⟩

end Sys2Proof.Machine
end

section
/-! SUPPORT. The selector reload: it runs whether due or not, nothing else runs while it is due, and what makes it due (spec
rules R167 and R185). -/

namespace Sys2Proof.Machine

open Sys2Proof

theorem ProgItem.isReload_eq_false {it : ProgItem} (h : ∀ cs ds, it ≠ .env (.reload cs ds)) : it.isReload = false := by
  unfold ProgItem.isReload
  split
  · exact absurd rfl (h _ _)
  · rfl

/-- While the reload is due any other item is refused (rule R185). -/
theorem programTurn_of_reloadDue {s : State} {it : ProgItem} (hitem : s.program[s.pc]? = some it)
    (hdue : s.reloadDue = true) (hit : it.isReload = false) : programTurn s = .refused .stepBeforeReload := by
  simp [programTurn, State.nextItem, hitem, hdue, hit]

/-- A word writes nothing but `pc`, the storage and the fault record, whether it decodes or not. -/
theorem runItem_word_sameEnvironment {W : Command} {s t : State} (h : runItem (.word W) s = .next t) :
    s.sameEnvironment t := by
  obtain ⟨_, _, -, -, rfl⟩ | ⟨_, i, -, -, hexec⟩ | ⟨_, hit, -⟩ := runItem_cases h
  · exact State.withFault_sameEnvironment s _
  · obtain ⟨u, hu, hsame, -⟩ := commandsWriteOnlyTheirFootprint i s
    rw [hexec] at hu
    cases hu
    exact hsame
  · cases hit

/-- Of the items that may run, a segment-table load alone leaves the reload due. -/
theorem runItem_reloadDue_iff {it : ProgItem} {s t : State} (hdue : s.reloadDue = true → it.isReload = true)
    (h : runItem it s = .next t) : t.reloadDue = true ↔ ∃ slot, it = .env (.lgdt slot) := by
  cases it with
  | word W =>
    rw [(runItem_word_sameEnvironment h).reloadDue]
    simpa [ProgItem.isReload] using hdue
  | env e =>
    obtain ⟨rfl, rfl⟩ | ⟨rfl, rfl⟩ | ⟨rfl, rfl⟩ | ⟨rfl, rfl⟩ | ⟨rfl, rfl⟩ | ⟨cs, ds, rfl, rfl⟩ | ⟨slot, r, rfl, -, rfl⟩ |
      ⟨slot, r, rfl, -, rfl⟩ := execEnv_cases h
    iterate 5 simpa [ProgItem.isReload, State.setIF] using hdue
    · simp
    · simp
    · simpa [ProgItem.isReload, State.activate] using hdue

/-- On the program's turn the CPU does not move. -/
theorem State.programMoves_turns_ne {s : State} {rest : List Turn} (h : s.programMoves rest) (addr : Word)
    (rest' : List Turn) : s.turns ≠ .setAccessed addr :: rest' := by
  rcases h with ⟨h, -⟩ | h <;> simp [h]

/-- After a step the reload is due exactly by a segment-table load, or as it was before the CPU's turn (rules R30 and R185). -/
theorem step_reloadDue_iff {s t : State} (h : step s = .next t) :
    t.reloadDue = true ↔
      ((∃ rest, s.programMoves rest) ∧ ∃ slot, s.program[s.pc]? = some (.env (.lgdt slot))) ∨
        (s.reloadDue = true ∧ ∃ addr rest, s.turns = .setAccessed addr :: rest) := by
  obtain ⟨-, ⟨addr, rest, hturn, hwrite⟩ | ⟨rest, it, hmoves, hitem, hdue, hrun⟩⟩ := step_cases h
  · have hcpu : ¬ ∃ rest, s.programMoves rest := fun ⟨_, hm⟩ => State.programMoves_turns_ne hm addr rest hturn
    obtain ⟨-, rfl⟩ := envSetAccessed_cases hwrite
    simp [hcpu, hturn]
  · have hprog : ¬ ∃ addr rest, s.turns = .setAccessed addr :: rest :=
      fun ⟨addr, rest', hturn⟩ => State.programMoves_turns_ne hmoves addr rest' hturn
    rw [runItem_reloadDue_iff (s := s.withTurns rest) hdue hrun, hitem]
    simp [hprog, show ∃ rest, s.programMoves rest from ⟨rest, hmoves⟩]

/-- Settles O36: a reload passes the guard of the program's turn and any other item is refused by it while a reload is due; the
account of a step is `step_reloadDue_iff`. -/
theorem onlyReloadFollowsTheSegmentTableLoad : Obligations.OnlyReloadFollowsTheSegmentTableLoad := by
  refine ⟨fun s rest cs ds he hmoves hitem => ?_, fun s rest it he hmoves hitem hdue hother => ?_,
    fun _ _ => step_reloadDue_iff⟩
  · rw [step_of_enabled he, takeTurn_of_programMoves hmoves]
    exact programTurn_of_item (s := s.withTurns rest) hitem (.inr rfl)
  · rw [step_of_enabled he, takeTurn_of_programMoves hmoves]
    exact programTurn_of_reloadDue (s := s.withTurns rest) hitem hdue (ProgItem.isReload_eq_false hother)

end Sys2Proof.Machine
end

section
/-! SUPPORT. The length of a run: each step but the last uses up an item of the program or a turn of the schedule (spec rules
R22, R30, R166 and R196). -/

namespace Sys2Proof.Machine

open Sys2Proof

/-- The items from `pc` on and the turns of the schedule that a run has left. -/
def State.stepsLeft (s : State) : Nat := s.program.length - s.pc + s.turns.length

/-- An environment step after which the machine still runs is no halt, so it advances `pc` (logs 2 and 12). -/
theorem execEnv_of_running {e : EnvStep} {s t : State} (h : execEnv e s = .next t) (hrun : t.halt = .running) :
    t.pc = s.pc + 1 ∧ t.turns = s.turns := by
  obtain ⟨-, rfl⟩ | ⟨-, rfl⟩ | ⟨-, rfl⟩ | ⟨-, rfl⟩ | ⟨-, rfl⟩ | ⟨_, _, -, rfl⟩ | ⟨_, _, -, -, rfl⟩ | ⟨_, _, -, -, rfl⟩ :=
    execEnv_cases h
  iterate 3 exact ⟨rfl, rfl⟩
  iterate 2 cases hrun
  iterate 3 exact ⟨rfl, rfl⟩

/-- A step needs an item or a turn, and uses it up unless it stops the machine. -/
theorem step_stepsLeft {s t : State} (h : step s = .next t) :
    0 < s.stepsLeft ∧ (t.enabled → t.stepsLeft < s.stepsLeft) := by
  obtain ⟨-, ⟨addr, rest, hturn, -, rfl⟩ | ⟨it, -, hitem, hrun⟩⟩ := step_next_cases h
  · simp [State.stepsLeft, hturn]
  · have hpc : s.pc < s.program.length := (List.getElem?_eq_some_iff.mp hitem).1
    have htail := List.length_tail (l := s.turns)
    refine ⟨by unfold State.stepsLeft; omega, fun ⟨hfault, hhalt⟩ => ?_⟩
    obtain ⟨W, f, -, rfl⟩ | ⟨W, i, -, -, -, rfl⟩ | ⟨e, -, he⟩ := hrun
    · cases hfault
    · simp only [State.stepsLeft]
      omega
    · obtain ⟨hpc', hturns⟩ := execEnv_of_running he hhalt
      obtain ⟨-, -, hprogram⟩ := execEnv_launchParameters he
      simp only [State.stepsLeft, hpc', hturns, hprogram]
      omega

/-- A run of one step more is a step and the run from where it leads. -/
theorem run_succ_eq_next {M : Host.Core} {k : Nat} {s t : M.State} (h : M.run (k + 1) s = .next t) :
    ∃ u, M.step s = .next u ∧ M.run k u = .next t := by
  unfold Host.Core.run at h
  split at h
  · rename_i u hstep
    exact ⟨u, hstep, h⟩
  · cases h
  · cases h

/-- A run that no fault or refusal has cut short took no more steps than were left. -/
theorem le_stepsLeft_of_run {k : Nat} {s t : State} (h : Host.Core.run core k s = .next t) : k ≤ s.stepsLeft := by
  induction k generalizing s with
  | zero => exact Nat.zero_le _
  | succ k ih =>
    obtain ⟨u, hstep, hrest⟩ := run_succ_eq_next h
    obtain ⟨hpos, hless⟩ := step_stepsLeft hstep
    cases k with
    | zero => exact hpos
    | succ j =>
      obtain ⟨v, hnext, -⟩ := run_succ_eq_next hrest
      have hlt := hless (step_cases hnext).1
      exact (ih hrest).trans_lt hlt

/-- Settles O30: `le_stepsLeft_of_run`, read backwards. -/
theorem everyRunEnds : Obligations.EveryRunEnds :=
  fun _ _ hk _ hrun => hk.not_ge (le_stepsLeft_of_run hrun)

end Sys2Proof.Machine
end

section
/-! SUPPORT. Where a run stops: a step faults only where none is enabled, and only a missing item is the program's end (spec
rules R165, R166 and R196). -/

namespace Sys2Proof.Machine

open Sys2Proof

/-- The answer is neither a fault nor the program's end: a next state or another refusal. -/
def neitherStopsNorEnds (o : StepResult) : Prop := (∀ f, o ≠ .fault f) ∧ o ≠ .refused .endOfProgram

theorem neitherStopsNorEnds_next (t : State) : neitherStopsNorEnds (.next t) := ⟨nofun, nofun⟩

theorem neitherStopsNorEnds_refused {r : Refusal} (h : r ≠ .endOfProgram) : neitherStopsNorEnds (.refused r) :=
  ⟨nofun, fun heq => h (Host.Outcome.refused.inj heq)⟩

/-- A table load loads or refuses its table descriptor (rule R167). -/
theorem neitherStopsNorEnds_tableLoad (slot : Word) (s : State) (built : Bool) (t : State) :
    neitherStopsNorEnds (tableLoad slot s built t) := by
  unfold tableLoad
  split_ifs
  · exact neitherStopsNorEnds_refused nofun
  · exact neitherStopsNorEnds_refused nofun
  · exact neitherStopsNorEnds_next t

/-- Of the environment's steps only the loads can be refused. -/
theorem neitherStopsNorEnds_execEnv (e : EnvStep) (s : State) : neitherStopsNorEnds (execEnv e s) := by
  cases e with
  | lgdt slot => exact neitherStopsNorEnds_tableLoad slot s _ _
  | lidt slot => exact neitherStopsNorEnds_tableLoad slot s _ _
  | _ => exact neitherStopsNorEnds_next _

/-- A word always answers a next state, its fault being recorded there (rule R165, log 9). -/
theorem neitherStopsNorEnds_runItem (it : ProgItem) (s : State) : neitherStopsNorEnds (runItem it s) := by
  cases it with
  | env e => exact neitherStopsNorEnds_execEnv e s
  | word W =>
    rcases hdec : decode W with r | i
    · simp only [runItem, hdec]
      exact neitherStopsNorEnds_next _
    · obtain ⟨t, ht, -⟩ := commandsWriteOnlyTheirFootprint i s
      rw [runItem_of_decode hdec, ht]
      exact neitherStopsNorEnds_next t

/-- The CPU's turn writes or is refused as no such step (rule R30, log 11). -/
theorem neitherStopsNorEnds_envSetAccessed (addr : Word) (s : State) : neitherStopsNorEnds (envSetAccessed addr s) := by
  unfold envSetAccessed
  split_ifs
  · exact neitherStopsNorEnds_next _
  · exact neitherStopsNorEnds_refused nofun

/-- Without an item at `pc` the program's turn is the end of the program (rule R196). -/
theorem programTurn_of_end {s : State} (h : s.program.length ≤ s.pc) : programTurn s = .refused .endOfProgram := by
  simp [programTurn, State.nextItem, h]

/-- With an item at `pc` the program's turn runs it or refuses it before a due reload (rule R185). -/
theorem neitherStopsNorEnds_programTurn {s : State} (h : s.pc < s.program.length) :
    neitherStopsNorEnds (programTurn s) := by
  have hitem : s.program[s.pc]? = some s.program[s.pc] := List.getElem?_eq_getElem h
  by_cases hrun : s.reloadDue = false ∨ s.program[s.pc].isReload = true
  · rw [programTurn_of_item hitem hrun]
    exact neitherStopsNorEnds_runItem _ s
  · obtain ⟨hdue, hother⟩ := not_or.mp hrun
    rw [programTurn_of_reloadDue hitem (by simpa using hdue) (by simpa using hother)]
    exact neitherStopsNorEnds_refused nofun

/-- An enabled state answers the program's end on the program's turn past the last item, and elsewhere neither stops nor
ends. -/
theorem step_of_enabled_cases {s : State} (he : s.enabled) :
    (s.program.length ≤ s.pc ∧ step s = .refused .endOfProgram) ∨ neitherStopsNorEnds (step s) := by
  have hprogram : ∀ rest, s.programMoves rest →
      (s.program.length ≤ s.pc ∧ step s = .refused .endOfProgram) ∨ neitherStopsNorEnds (step s) := by
    intro rest hmoves
    rw [step_of_enabled he, takeTurn_of_programMoves hmoves]
    rcases Nat.lt_or_ge s.pc s.program.length with hpc | hpc
    · exact .inr (neitherStopsNorEnds_programTurn (s := s.withTurns rest) hpc)
    · exact .inl ⟨hpc, programTurn_of_end (s := s.withTurns rest) hpc⟩
  rcases hturns : s.turns with _ | ⟨_ | addr, rest⟩
  · exact hprogram [] (.inl ⟨hturns, rfl⟩)
  · exact hprogram rest (.inr hturns)
  · rw [step_of_setAccessed he hturns]
    exact .inr (neitherStopsNorEnds_envSetAccessed addr _)

/-- A step answers a fault exactly where none is enabled (rules R165 and R166). -/
theorem step_fault_iff (s : State) : (∃ f, step s = .fault f) ↔ ¬ s.enabled := by
  constructor
  · rintro ⟨f, hf⟩ he
    obtain ⟨-, hend⟩ | ⟨hnever, -⟩ := step_of_enabled_cases he
    · rw [hend] at hf
      cases hf
    · exact hnever f hf
  · intro he
    obtain ⟨f, hf⟩ := Option.ne_none_iff_exists'.mp (mt (stopped_eq_none_iff s).mp he)
    exact ⟨f, by rw [step, hf]⟩

/-- The failed and the stuck states are those in which no step is enabled (rule R196). -/
theorem not_enabled_iff (s : State) : ¬ s.enabled ↔ s.failed ∨ s.stuck := by
  unfold State.enabled State.failed State.stuck
  cases s.halt <;> simp

/-- The program's end is answered only past the last item and without a fault. -/
theorem of_step_endOfProgram {s : State} (h : step s = .refused .endOfProgram) :
    s.fault = none ∧ s.program.length ≤ s.pc := by
  by_cases he : s.enabled
  · obtain ⟨hpc, -⟩ | ⟨-, hnever⟩ := step_of_enabled_cases he
    · exact ⟨he.1, hpc⟩
    · exact absurd h hnever
  · obtain ⟨f, hf⟩ := (step_fault_iff s).mpr he
    rw [hf] at h
    cases h

/-- Settles O31: of the invariant it takes that `pc` does not pass the program's end, and that a halt leaves it short of it. -/
theorem stoppedRunsHaveTheOutcomesOfTheSpec : Obligations.StoppedRunsHaveTheOutcomesOfTheSpec := by
  intro s hinv
  refine ⟨(step_fault_iff s).trans (not_enabled_iff s), fun hend => ?_, fun ⟨hpc, hfault⟩ ⟨rest, hmoves⟩ => ?_⟩
  · obtain ⟨hfault, hpast⟩ := of_step_endOfProgram hend
    exact ⟨hinv.pcInProgram.antisymm hpast, hfault⟩
  · have hrun : s.halt = .running := by
      by_contra hhalt
      exact (hinv.haltInProgram hhalt).ne hpc
    rw [step_of_enabled ⟨hfault, hrun⟩, takeTurn_of_programMoves hmoves]
    exact programTurn_of_end (s := s.withTurns rest) hpc.ge

end Sys2Proof.Machine
end
